-- ==== Sys2Proof/Word.lean ====
section
/-! DEFINITION. The word types of the FEC core (00_scope.md R6, 10_state.md R21 to R23, R30, R66) and the one
plain helper that lays a finite function out as a vector. -/

namespace Sys2Proof

/-- One byte of the register window: every host access carries one (R8, R50). -/
abbrev Byte := BitVec 8

/-- A 12-bit field payload; it is also the index into the three lookup ROMs (R6, R66). -/
abbrev Payload := BitVec 12

/-- One entry of a lookup ROM: TABLE_WIDTH is 24 bits (R6). -/
abbrev RomWord := BitVec 24

/-- A WireFrame: 72 bits stored as 9 bytes (R22). -/
abbrev WireFrame := Vector Byte 9

/-- A ParamFrame in its buffer of 7 bytes: positions 0..48 data, 49..55 padding (R23). -/
abbrev ParamFrame := Vector Byte 7

/-- A wire position, 0..71 (R9, R30). -/
abbrev WirePos := Fin 72

/-- A lookup ROM: 4096 entries, total over 0..4095 (R29, R66). -/
abbrev RomTable := Vector RomWord 4096

/-- `tabulate f` holds `f i` at index `i`. -/
def tabulate {α : Type} {n : Nat} (f : Fin n → α) : Vector α n :=
  Vector.mk (List.ofFn f).toArray (by rw [List.size_toArray, List.length_ofFn])

theorem getElem_tabulate {α : Type} {n : Nat} (f : Fin n → α) (i : Nat) (h : i < n) :
    (tabulate f)[i] = f ⟨i, h⟩ := by
  simp [tabulate]

end Sys2Proof
end

