-- ==== Sys2Proof/Config.lean ====
section
/-! DEFINITION. What an implementation fixes and the spec leaves open (00_scope.md R7, R8; 92_eei_decisions.md
D1, D11): the contents of the six ROMs and the base address of the register window. Each is a free value: an
opaque constant without a body, so no proof can learn it. -/

namespace Sys2Proof

/-- The six read-only tables (10_state.md R29). The types carry the lengths and ranges of R6, R30 and R66: 24, 23
and 25 wire positions in 0..71, and 4096 entries of 24 bits. -/
structure Rom where
  /-- PERM_A: wire positions of field A, entry 0 for its most significant bit (R30). -/
  permA : Vector WirePos 24
  /-- PERM_B: wire positions of field B (R30). -/
  permB : Vector WirePos 23
  /-- PERM_C: wire positions of field C (R30). -/
  permC : Vector WirePos 25
  /-- GOLAY24: payload to 24-bit systematic codeword (R31). -/
  golay24 : RomTable
  /-- GOLAY23: payload to 24-bit value whose top 23 bits are the codeword (R32). -/
  golay23 : RomTable
  /-- PRNG: payload to 24-bit scrambling word (R34). -/
  prng : RomTable
  deriving DecidableEq, Repr

namespace Config

/-- Where the 72 logical bits of fields A, B and C, in that order, stand on the wire. An arbitrary permutation of
the 72 positions is exactly what R30 and R33 allow of PERM_A, PERM_B and PERM_C. Free value (log 4). -/
opaque wireOrder : Equiv.Perm WirePos

/-- The parity bits `GOLAY24[v][11:0]`, parameter contents (R31). Free value (log 4). -/
opaque golay24Parity : Payload → BitVec 12

/-- The bits `GOLAY23[v][11:0]`: 11 parity bits and the unread bit 0 (R32, U2). Free value (log 4). -/
opaque golay23Parity : Payload → BitVec 12

/-- PRNG, without constraint (R34, U11). Free value (log 4). -/
opaque prngWord : Payload → RomWord

/-- WINDOW_BASE, the platform's choice; no rule depends on it (R8, R50, R63). Free value (log 9). -/
opaque windowBase : Nat

/-- The host address of a window offset (R50). -/
def hostAddress (off : Byte) : Nat := windowBase + off.toNat

/-- The window offset at a host address; `none` outside the window's 256 bytes, where the core is not addressed. -/
def offsetAt (addr : Nat) : Option Byte :=
  if windowBase ≤ addr ∧ addr < windowBase + 256 then some (BitVec.ofNat 8 (addr - windowBase)) else none

/-- The ROM image made of an order of the wire positions and three tables of free bits: fields A, B and C take the
first 24, the next 23 and the last 25 positions, and both code tables carry the payload in their high 12 bits. -/
def romOf (order : Equiv.Perm WirePos) (parity24 parity23 : Payload → BitVec 12) (prng : Payload → RomWord) :
    Rom where
  permA := tabulate fun i => order ⟨i.val, by omega⟩
  permB := tabulate fun i => order ⟨24 + i.val, by omega⟩
  permC := tabulate fun i => order ⟨47 + i.val, by omega⟩
  golay24 := tabulate fun i => (BitVec.ofFin i : Payload) ++ parity24 (BitVec.ofFin i)
  golay23 := tabulate fun i => (BitVec.ofFin i : Payload) ++ parity23 (BitVec.ofFin i)
  prng := tabulate fun i => prng (BitVec.ofFin i)

/-- The ROM image the machine is built with: any image that meets R30 to R34, and no other (log 4). -/
def rom : Rom := romOf wireOrder golay24Parity golay23Parity prngWord

end Config

end Sys2Proof
end

