-- ==== Sys2Proof/Syntax.lean ====
section
/-! DEFINITION. The command set: one constructor for each of the 17 rows of spec/opcode_table.json
(30_encoding.md R82). Every operand is an implicit register or ROM (R83), so no constructor has a field. -/

namespace Sys2Proof

/-- A command of the FEC core (00_scope.md R2, 30_encoding.md R82). -/
inductive Instr where
  /-- NOP, 45_control.md R200. -/
  | nop
  /-- DECODE, 44_frame_transform.md R174. -/
  | decode
  /-- ENCODE, 44_frame_transform.md R176. -/
  | encode
  /-- GATHER_A, 41_permutation.md R102. -/
  | gatherA
  /-- GATHER_B, 41_permutation.md R103. -/
  | gatherB
  /-- GATHER_C, 41_permutation.md R104. -/
  | gatherC
  /-- SCATTER_A, 41_permutation.md R105. -/
  | scatterA
  /-- SCATTER_B, 41_permutation.md R106. -/
  | scatterB
  /-- SCATTER_C, 41_permutation.md R107. -/
  | scatterC
  /-- EXTRACT_A, 42_block_code.md R121. -/
  | extractA
  /-- EXTRACT_B, 42_block_code.md R122. -/
  | extractB
  /-- GOLAY24_ENC, 42_block_code.md R123. -/
  | golay24Enc
  /-- GOLAY23_ENC, 42_block_code.md R124. -/
  | golay23Enc
  /-- PRNG_MASK, 43_scrambler.md R151. -/
  | prngMask
  /-- SCRAMBLE_B, 43_scrambler.md R152. -/
  | scrambleB
  /-- UNPACK_PARAM, 44_frame_transform.md R171. -/
  | unpackParam
  /-- PACK_PARAM, 44_frame_transform.md R172. -/
  | packParam
  deriving DecidableEq, Repr

end Sys2Proof
end

