-- ==== Sys2Proof/WellFormed.lean ====
section
/-! DEFINITION. Well-formedness: of a command (30_encoding.md R83), and of the ROM parameters (10_state.md R30 to
R33, with the refusal of an ill-formed parameter set that 93_implementation_defined.md U10 asks for). -/

namespace Sys2Proof

/-- A command has no operand field, so each of the 17 is well formed as it stands (R83). -/
abbrev Instr.WellFormed (i : Instr) : Prop :=
  match i with
  | .nop | .decode | .encode => True
  | .gatherA | .gatherB | .gatherC | .scatterA | .scatterB | .scatterC => True
  | .extractA | .extractB | .golay24Enc | .golay23Enc => True
  | .prngMask | .scrambleB | .unpackParam | .packParam => True

/-- The 72 entries of PERM_A, PERM_B and PERM_C in order (R33). -/
def Rom.positions (r : Rom) : List WirePos :=
  r.permA.toList ++ r.permB.toList ++ r.permC.toList

/-- Entry `v` carries `v` in its high 12 bits, for every index (R31, R32). -/
abbrev RomTable.Systematic (t : RomTable) : Prop :=
  ∀ v : Fin 4096, t[v].extractLsb' 12 12 = BitVec.ofNat 12 v.val

/-- A well-formed ROM image: the 72 positions pairwise distinct (R33, decision D12), GOLAY24 systematic (R31) and
GOLAY23 systematic (R32, decision D13). Lengths and ranges are in `Rom`'s types; PRNG is unconstrained (R34). -/
abbrev Rom.WellFormed (r : Rom) : Prop :=
  r.positions.Nodup ∧ RomTable.Systematic r.golay24 ∧ RomTable.Systematic r.golay23

/-- A proposed parameter set before any check: six lists of numbers (R7, U10). -/
structure RomImage where
  permA : List Nat
  permB : List Nat
  permC : List Nat
  golay24 : List Nat
  golay23 : List Nat
  prng : List Nat
  deriving DecidableEq, Repr

/-- Why a parameter set is refused (U10; the entry width is 95_test_vectors.md L1-5). -/
inductive RomDefect where
  /-- PERM_A, PERM_B or PERM_C has not 24, 23 or 25 entries (R30). -/
  | permutationLength
  /-- An entry of a permutation is outside 0..71 (R30). -/
  | positionOutOfRange
  /-- A wire position is given twice (R33). -/
  | positionRepeated
  /-- A lookup table has not exactly 4096 entries (R6). -/
  | tableLength
  /-- A lookup entry is wider than 24 bits (R6). -/
  | entryTooWide
  /-- A GOLAY24 entry's top 12 bits differ from its index (R31). -/
  | golay24NotSystematic
  /-- A GOLAY23 entry's top 12 bits differ from its index (R32). -/
  | golay23NotSystematic
  deriving DecidableEq, Repr

/-- Every number of a list, read as a 24-bit value, has its own index in its high 12 bits. -/
def systematicFrom : Nat → List Nat → Bool
  | _, [] => true
  | v, e :: rest => e / 4096 == v && systematicFrom (v + 1) rest

/-- The first defect of a parameter set, if it has one (U10). -/
def RomImage.defect (m : RomImage) : Option RomDefect :=
  let positions := m.permA ++ m.permB ++ m.permC
  let entries := m.golay24 ++ m.golay23 ++ m.prng
  if ¬ (m.permA.length = 24 ∧ m.permB.length = 23 ∧ m.permC.length = 25) then some .permutationLength
  else if ¬ (∀ p ∈ positions, p < 72) then some .positionOutOfRange
  else if ¬ positions.Nodup then some .positionRepeated
  else if ¬ (m.golay24.length = 4096 ∧ m.golay23.length = 4096 ∧ m.prng.length = 4096) then some .tableLength
  else if ¬ (∀ e ∈ entries, e < 2 ^ 24) then some .entryTooWide
  else if ¬ systematicFrom 0 m.golay24 then some .golay24NotSystematic
  else if ¬ systematicFrom 0 m.golay23 then some .golay23NotSystematic
  else none

/-- A permutation table from numbers, each already checked to be in 0..71. -/
def permOfList (n : Nat) (l : List Nat) : Vector WirePos n :=
  tabulate fun i => Fin.ofNat 72 (l.getD i.val 0)

/-- A lookup table from numbers, each already checked to fit 24 bits. -/
def tableOfList (l : List Nat) : RomTable :=
  tabulate fun i => BitVec.ofNat 24 (l.getD i.val 0)

/-- The ROM of a parameter set, refused by the name of its defect when it is ill formed (U10). -/
def RomImage.load (m : RomImage) : Except RomDefect Rom :=
  match m.defect with
  | some d => .error d
  | none => .ok {
      permA := permOfList 24 m.permA
      permB := permOfList 23 m.permB
      permC := permOfList 25 m.permC
      golay24 := tableOfList m.golay24
      golay23 := tableOfList m.golay23
      prng := tableOfList m.prng }

end Sys2Proof
end

