-- ==== Sys2Proof/Decode.lean ====
section
/-! DEFINITION. The command byte (30_encoding.md R80 to R85): the decoder, total on all 256 values and rejecting
the 239 illegal ones by name, and the encoder written from the same table. -/

namespace Sys2Proof

/-- Why a command byte does not decode. -/
inductive DecodeError where
  /-- The value is not one of the 17 legal values of R82 (R84). -/
  | illegalCommand (v : Byte)
  deriving DecidableEq, Repr

/-- GRP, bits 7:4 of CMD8 (R81). -/
def commandGroup (v : Byte) : BitVec 4 := v.extractLsb' 4 4

/-- FN, bits 3:0 of CMD8 (R81). -/
def commandFunction (v : Byte) : BitVec 4 := v.extractLsb' 0 4

/-- The opcode map of R82: the whole byte is matched (mask 0xFF), and every other value is illegal (R84). -/
def decode (v : Byte) : Except DecodeError Instr :=
  match v with
  | 0x00#8 => .ok .nop
  | 0x01#8 => .ok .decode
  | 0x02#8 => .ok .encode
  | 0x10#8 => .ok .gatherA
  | 0x11#8 => .ok .gatherB
  | 0x12#8 => .ok .gatherC
  | 0x18#8 => .ok .scatterA
  | 0x19#8 => .ok .scatterB
  | 0x1A#8 => .ok .scatterC
  | 0x20#8 => .ok .extractA
  | 0x21#8 => .ok .extractB
  | 0x28#8 => .ok .golay24Enc
  | 0x29#8 => .ok .golay23Enc
  | 0x30#8 => .ok .prngMask
  | 0x31#8 => .ok .scrambleB
  | 0x40#8 => .ok .unpackParam
  | 0x41#8 => .ok .packParam
  | v => .error (.illegalCommand v)

/-- The command byte of an instruction (R82). -/
def encode (i : Instr) : Byte :=
  match i with
  | .nop => 0x00#8
  | .decode => 0x01#8
  | .encode => 0x02#8
  | .gatherA => 0x10#8
  | .gatherB => 0x11#8
  | .gatherC => 0x12#8
  | .scatterA => 0x18#8
  | .scatterB => 0x19#8
  | .scatterC => 0x1A#8
  | .extractA => 0x20#8
  | .extractB => 0x21#8
  | .golay24Enc => 0x28#8
  | .golay23Enc => 0x29#8
  | .prngMask => 0x30#8
  | .scrambleB => 0x31#8
  | .unpackParam => 0x40#8
  | .packParam => 0x41#8

/-- The instruction the decoder reads from a table word of `nbits` bits. A command is exactly one byte, with no
longer form (R85), so any other width or a number that does not fit one byte is no command. -/
def decodeTableWord (nbits w : Nat) : Option Instr :=
  if nbits = 8 ∧ w < 256 then
    match decode (BitVec.ofNat 8 w) with
    | .ok i => some i
    | .error _ => none
  else none

end Sys2Proof
end

