-- ==== Sys2Proof/Machine/State.lean ====
section
/-! DEFINITION. The machine's state (10_state.md R20 to R29): the register file of R21, the six ROMs of R29, and the
host's side of the register window. Plain data throughout. -/

namespace Sys2Proof.Machine

/-- One thing the host or the platform does to the core (R20, R50, R240). `read off 1` is `MemRead(off, 1)` and
`write off [v]` is `MemWrite(off, 1, v)`; any other number of bytes is a wider access, which the interface does not
have (R62). `reset` is the reset input asserted between two accesses (R240). -/
inductive HostAccess where
  | read (off : Byte) (bytes : Nat)
  | write (off : Byte) (data : List Byte)
  | reset
  deriving DecidableEq, Repr

/-- The state of the core and of the host's side of its window. CMD needs no field: it holds no value between
writes (R26; log 6). STATUS is stored as its one bit ILL (R27; log 7). -/
structure State where
  /-- WIRE, 72 bits as 9 bytes (R22). -/
  wire : WireFrame
  /-- PARAM, 56 bits as 7 bytes (R23). -/
  param : ParamFrame
  /-- FA, 24 bits (R21). -/
  fa : BitVec 24
  /-- FB, 23 bits (R21). -/
  fb : BitVec 23
  /-- FC, 25 bits (R21). -/
  fc : BitVec 25
  /-- PA, 12 bits (R21). -/
  pa : Payload
  /-- PB, 12 bits (R21). -/
  pb : Payload
  /-- MASK, 23 bits (R21). -/
  mask : BitVec 23
  /-- STATUS.ILL (R27). -/
  ill : Bool
  /-- The read-only tables (R28, R29). -/
  rom : Rom
  /-- The model's own field: the accesses the host has still to make, the next one first (R58; log 1). -/
  pending : List HostAccess
  /-- The model's own field: the values the host's reads have returned, oldest first (R50; log 2). -/
  replies : List Byte
  deriving DecidableEq, Repr

/-- What stops the machine with a fault: nothing. "Every host access completes" (60_exceptions.md R214), and no
legal command raises an exception (R212). The type has no constructor, so no claim can hide behind a fault (log 13). -/
inductive Fault where
  deriving DecidableEq, Repr

/-- Why the model refuses. -/
inductive Refusal where
  /-- Raised by `exec`'s arm of an instruction that has no meaning yet; no arm raises it. Safe: the model stops. -/
  | notModelled (mnemonic : String)
  /-- Raised by `hostAccess` for an access of any width but one byte (20_memory.md R62,
  93_implementation_defined.md U3). Safe: the model stops where a platform would split the access (log 8). -/
  | accessNotOneByte (bytes : Nat)
  deriving DecidableEq, Repr

namespace State

/-! One setter per field that the machine writes. Each keeps exactly the register's width (R21). -/

def setWire (s : State) (v : WireFrame) : State := { s with wire := v }
def setParam (s : State) (v : ParamFrame) : State := { s with param := v }
def setFA (s : State) (v : BitVec 24) : State := { s with fa := v }
def setFB (s : State) (v : BitVec 23) : State := { s with fb := v }
def setFC (s : State) (v : BitVec 25) : State := { s with fc := v }
def setPA (s : State) (v : Payload) : State := { s with pa := v }
def setPB (s : State) (v : Payload) : State := { s with pb := v }
def setMask (s : State) (v : BitVec 23) : State := { s with mask := v }
def setIll (s : State) (v : Bool) : State := { s with ill := v }
def setPending (s : State) (v : List HostAccess) : State := { s with pending := v }
def setReplies (s : State) (v : List Byte) : State := { s with replies := v }

/-- The state right after reset of a core built with ROM image `rom`: every register at the reset value of R21
(70_reset_and_hazards.md R240), no access waiting and no reply given. -/
def withRom (rom : Rom) : State where
  wire := Vector.replicate 9 0#8
  param := Vector.replicate 7 0#8
  fa := 0#24
  fb := 0#23
  fc := 0#25
  pa := 0#12
  pb := 0#12
  mask := 0#23
  ill := false
  rom := rom
  pending := []
  replies := []

/-- The machine right after reset (R240), over the free ROM contents of Config (R7, R35; log 4). -/
def reset : State := withRom Config.rom

end State

end Sys2Proof.Machine
end

