-- ==== Sys2Proof/Machine/Ops.lean ====
section
/-! DEFINITION. The shared operations: single bits and bytes of a value, the two bit primitives over a frame
(20_memory.md R56) and the loops built on them, the one exceptional event (60_exceptions.md R210), and the reset
input (70_reset_and_hazards.md R240). There is no return from an exception (R217). -/

namespace Sys2Proof.Machine

/-- `x` with integer bit `i` made `b`, every other bit as it was. -/
def putBit {w : Nat} (x : BitVec w) (i : Nat) (b : Bool) : BitVec w :=
  if b then x ||| (1#w <<< i) else x &&& ~~~(1#w <<< i)

/-- Byte `k` of a register, byte 0 the least significant; bits above the register's width read 0 (R54). -/
def getByte {w : Nat} (x : BitVec w) (k : Nat) : Byte := (x >>> (8 * k)).setWidth 8

/-- A register with its byte `k` made `v`; bits of `v` above the register's width are lost (R21, R54). -/
def putByte {w : Nat} (x : BitVec w) (k : Nat) (v : Byte) : BitVec w :=
  (x &&& ~~~((0xFF#8).setWidth w <<< (8 * k))) ||| (v.setWidth w <<< (8 * k))

/-- `readBit(buf, p)`: bit `7 - (p mod 8)` of byte `p div 8` (R11, R56). Every position the machine uses is inside
its buffer (R67); past the end there is no bit and the answer is `false`. -/
def readBit {n : Nat} (buf : Vector Byte n) (p : Nat) : Bool :=
  (buf[p / 8]?.getD 0#8).getLsbD (7 - p % 8)

/-- `writeBit(buf, p, b)`: that same bit made `b`, every other bit of `buf` unchanged (R11, R56). -/
def writeBit {n : Nat} (buf : Vector Byte n) (p : Nat) (b : Bool) : Vector Byte n :=
  buf.setIfInBounds (p / 8) (putBit (buf[p / 8]?.getD 0#8) (7 - p % 8) b)

/-- Bit `n-1-i` of the result is the frame's bit at `pos i`: the positions are MSB-first (R100, R171). -/
def gatherBits {m n : Nat} (buf : Vector Byte m) (pos : Fin n → Nat) : BitVec n :=
  BitVec.ofFnBE fun i => readBit buf (pos i)

/-- Writes bit `n-1-i` of `v` to position `pos i`, for `i` upward from 0 (R101, R172). -/
def scatterBits {m n : Nat} (v : BitVec n) (pos : Fin n → Nat) (buf : Vector Byte m) : Vector Byte m :=
  (List.finRange n).foldl (fun b i => writeBit b (pos i) (v.getMsbD i.val)) buf

/-- `raise IllegalCommand(v)` (R210): STATUS.ILL becomes 1 and nothing else changes. The value `v` is recorded
nowhere, nothing is saved and nothing is entered (R217). -/
def raiseIllegalCommand (_v : Byte) (s : State) : Host.Outcome State Fault Refusal :=
  .next (s.setIll true)

/-- The reset input (R240): every register of R21 to its reset value, the ROMs as they are, no command performed.
The host's own side, what it has still to ask and what it was answered, is not the core's to reset (log 10). -/
def resetInput (s : State) : State :=
  ((State.withRom s.rom).setPending s.pending).setReplies s.replies

end Sys2Proof.Machine
end

