-- ==== Sys2Proof/Machine/Flags.lean ====
section
/-! DEFINITION. STATUS (10_state.md R25, R27): the core has no condition flags, and ILL is the only status bit. A
legal command clears it (30_encoding.md R80, 60_exceptions.md R211); `raiseIllegalCommand` in Ops sets it. -/

namespace Sys2Proof.Machine

/-- STATUS as the host reads it: ILL in bit 0, bits 7:1 hardwired to 0 (R27). -/
def status (s : State) : Byte := (BitVec.ofBool s.ill).setWidth 8

/-- CMD as the host reads it: 0x00 (R26). -/
def cmdRead (_s : State) : Byte := 0x00#8

/-- How every legal command ends: STATUS.ILL is written once, to 0, at the end (R80, R174). -/
def complete (s : State) : Host.Outcome State Fault Refusal := .next (s.setIll false)

end Sys2Proof.Machine
end

