-- ==== Sys2Proof/Machine/Control.lean ====
section
/-! DEFINITION. The control family (45_control.md R200). The core has no control transfer (R201) and no system
command (R202). -/

namespace Sys2Proof.Machine

/-- NOP (R200): no register changes but STATUS.ILL, which it clears. -/
def execNop (s : State) : Host.Outcome State Fault Refusal := complete s

end Sys2Proof.Machine
end

