-- ==== Sys2Proof/Machine/Operands.lean ====
section
/-! DEFINITION. The operand forms. Every operand is implicit (30_encoding.md R83): a register by name, a lookup ROM
at a payload (20_memory.md R66), a wire field through its permutation ROM (R67, 41_permutation.md R100, R101), or a
fixed run of PARAM positions (44_frame_transform.md R170). -/

namespace Sys2Proof.Machine

/-- Entry `v` of a lookup ROM; a 12-bit index is always in range (R66). -/
def romAt (t : RomTable) (v : Payload) : RomWord :=
  t[v.toNat]'(by have := v.isLt; omega)

/-- `gather(T)` (R100): the wire field that permutation table `T` names. -/
def gather {n : Nat} (T : Vector WirePos n) (s : State) : BitVec n :=
  gatherBits s.wire fun i => (T[i]).val

/-- `scatter(v, T)` (R101): WIRE with `v` written at the positions of `T`, its other positions unchanged. -/
def scatter {n : Nat} (v : BitVec n) (T : Vector WirePos n) (s : State) : State :=
  s.setWire (scatterBits v (fun i => (T[i]).val) s.wire)

/-- The `n`-bit field of PARAM whose most significant bit is at position `start` (R170, R171). -/
def paramField (start n : Nat) (buf : ParamFrame) : BitVec n :=
  gatherBits buf fun i => start + i.val

/-- PARAM with an `n`-bit field written from position `start` on (R170, R172). -/
def putParamField {n : Nat} (start : Nat) (v : BitVec n) (buf : ParamFrame) : ParamFrame :=
  scatterBits v (fun i => start + i.val) buf

/-- The top 23 bits of a 24-bit ROM word, its bit 0 discarded (R32, R34, R150). -/
def top23 (w : RomWord) : BitVec 23 := w.extractLsb' 1 23

end Sys2Proof.Machine
end

