-- ==== Sys2Proof/Machine/BlockCode.lean ====
section
/-! DEFINITION. The block-code family (42_block_code.md R121 to R124). Extraction is bit extraction and never
corrects (R125). -/

namespace Sys2Proof.Machine

/-- `PA <- FA[23:12]` (R121). -/
def extractPayloadA (s : State) : State := s.setPA (s.fa.extractLsb' 12 12)

/-- `PB <- FB[22:11]` (R122). -/
def extractPayloadB (s : State) : State := s.setPB (s.fb.extractLsb' 11 12)

/-- `FA <- GOLAY24[PA]` (R123). -/
def encodeGolay24 (s : State) : State := s.setFA (romAt s.rom.golay24 s.pa)

/-- `FB <- GOLAY23[PB][23:1]` (R124). -/
def encodeGolay23 (s : State) : State := s.setFB (top23 (romAt s.rom.golay23 s.pb))

/-- EXTRACT_A (R121). -/
def execExtractA (s : State) : Host.Outcome State Fault Refusal := complete (extractPayloadA s)

/-- EXTRACT_B (R122). -/
def execExtractB (s : State) : Host.Outcome State Fault Refusal := complete (extractPayloadB s)

/-- GOLAY24_ENC (R123). -/
def execGolay24Enc (s : State) : Host.Outcome State Fault Refusal := complete (encodeGolay24 s)

/-- GOLAY23_ENC (R124). -/
def execGolay23Enc (s : State) : Host.Outcome State Fault Refusal := complete (encodeGolay23 s)

end Sys2Proof.Machine
end

