-- ==== Sys2Proof/Machine/Permutation.lean ====
section
/-! DEFINITION. The permutation family (41_permutation.md R102 to R107). -/

namespace Sys2Proof.Machine

/-- `FA <- gather(PERM_A)` (R102). -/
def gatherFieldA (s : State) : State := s.setFA (gather s.rom.permA s)

/-- `FB <- gather(PERM_B)` (R103). -/
def gatherFieldB (s : State) : State := s.setFB (gather s.rom.permB s)

/-- `FC <- gather(PERM_C)` (R104). -/
def gatherFieldC (s : State) : State := s.setFC (gather s.rom.permC s)

/-- `scatter(FA, PERM_A)` (R105). -/
def scatterFieldA (s : State) : State := scatter s.fa s.rom.permA s

/-- `scatter(FB, PERM_B)` (R106). -/
def scatterFieldB (s : State) : State := scatter s.fb s.rom.permB s

/-- `scatter(FC, PERM_C)` (R107). -/
def scatterFieldC (s : State) : State := scatter s.fc s.rom.permC s

/-- GATHER_A (R102). -/
def execGatherA (s : State) : Host.Outcome State Fault Refusal := complete (gatherFieldA s)

/-- GATHER_B (R103). -/
def execGatherB (s : State) : Host.Outcome State Fault Refusal := complete (gatherFieldB s)

/-- GATHER_C (R104). -/
def execGatherC (s : State) : Host.Outcome State Fault Refusal := complete (gatherFieldC s)

/-- SCATTER_A (R105). -/
def execScatterA (s : State) : Host.Outcome State Fault Refusal := complete (scatterFieldA s)

/-- SCATTER_B (R106). -/
def execScatterB (s : State) : Host.Outcome State Fault Refusal := complete (scatterFieldB s)

/-- SCATTER_C (R107). -/
def execScatterC (s : State) : Host.Outcome State Fault Refusal := complete (scatterFieldC s)

end Sys2Proof.Machine
end

