-- ==== Sys2Proof/Machine/Scrambler.lean ====
section
/-! DEFINITION. The scrambler family (43_scrambler.md R150 to R152). -/

namespace Sys2Proof.Machine

/-- `MASK <- PRNG[PA][23:1]` (R150, R151). -/
def formMask (s : State) : State := s.setMask (top23 (romAt s.rom.prng s.pa))

/-- `FB <- FB XOR MASK`, the scrambler and the descrambler both (R152). -/
def scrambleFieldB (s : State) : State := s.setFB (s.fb ^^^ s.mask)

/-- PRNG_MASK (R151). -/
def execPrngMask (s : State) : Host.Outcome State Fault Refusal := complete (formMask s)

/-- SCRAMBLE_B (R152). -/
def execScrambleB (s : State) : Host.Outcome State Fault Refusal := complete (scrambleFieldB s)

end Sys2Proof.Machine
end

