-- ==== Sys2Proof/Machine/Frame.lean ====
section
/-! DEFINITION. The frame family (44_frame_transform.md R170 to R176): pack, unpack, and the two composites, each the
fixed sequence of component effects its rule lists, in its order (R173, R175; decision D9). -/

namespace Sys2Proof.Machine

/-- PA, PB and FC from PARAM positions 0..11, 12..23 and 24..48 (R170, R171). -/
def unpackFields (s : State) : State :=
  ((s.setPA (paramField 0 12 s.param)).setPB (paramField 12 12 s.param)).setFC (paramField 24 25 s.param)

/-- PARAM positions 0..48 from PA, PB and FC; padding is not written (R170, R172). -/
def packFields (s : State) : State :=
  s.setParam (putParamField 24 s.fc (putParamField 12 s.pb (putParamField 0 s.pa s.param)))

/-- The eight steps of DECODE in order (R174): field A before field B (R173). -/
def decodeFrame (s : State) : State :=
  let s := gatherFieldA s
  let s := extractPayloadA s
  let s := gatherFieldB s
  let s := formMask s
  let s := scrambleFieldB s
  let s := extractPayloadB s
  let s := gatherFieldC s
  packFields s

/-- The eight steps of ENCODE in order (R176): the mask from A's original payload (R175). -/
def encodeFrame (s : State) : State :=
  let s := unpackFields s
  let s := encodeGolay24 s
  let s := formMask s
  let s := encodeGolay23 s
  let s := scrambleFieldB s
  let s := scatterFieldA s
  let s := scatterFieldB s
  scatterFieldC s

/-- UNPACK_PARAM (R171). -/
def execUnpackParam (s : State) : Host.Outcome State Fault Refusal := complete (unpackFields s)

/-- PACK_PARAM (R172). -/
def execPackParam (s : State) : Host.Outcome State Fault Refusal := complete (packFields s)

/-- DECODE (R174): STATUS is written once, at the end. -/
def execDecode (s : State) : Host.Outcome State Fault Refusal := complete (decodeFrame s)

/-- ENCODE (R176): STATUS is written once, at the end. -/
def execEncode (s : State) : Host.Outcome State Fault Refusal := complete (encodeFrame s)

end Sys2Proof.Machine
end

