-- ==== Sys2Proof/Machine/Dispatch.lean ====
section
/-! DEFINITION. One arm for each legal command (30_encoding.md R82). -/

namespace Sys2Proof.Machine

def exec (i : Instr) (s : State) : Host.Outcome State Fault Refusal :=
  match i with
  | .nop => Sys2Proof.Machine.execNop s
  | .decode => Sys2Proof.Machine.execDecode s
  | .encode => Sys2Proof.Machine.execEncode s
  | .gatherA => Sys2Proof.Machine.execGatherA s
  | .gatherB => Sys2Proof.Machine.execGatherB s
  | .gatherC => Sys2Proof.Machine.execGatherC s
  | .scatterA => Sys2Proof.Machine.execScatterA s
  | .scatterB => Sys2Proof.Machine.execScatterB s
  | .scatterC => Sys2Proof.Machine.execScatterC s
  | .extractA => Sys2Proof.Machine.execExtractA s
  | .extractB => Sys2Proof.Machine.execExtractB s
  | .golay24Enc => Sys2Proof.Machine.execGolay24Enc s
  | .golay23Enc => Sys2Proof.Machine.execGolay23Enc s
  | .prngMask => Sys2Proof.Machine.execPrngMask s
  | .scrambleB => Sys2Proof.Machine.execScrambleB s
  | .unpackParam => Sys2Proof.Machine.execUnpackParam s
  | .packParam => Sys2Proof.Machine.execPackParam s

end Sys2Proof.Machine
end

