-- ==== Sys2Proof/Machine/Window.lean ====
section
/-! DEFINITION. The register window (20_memory.md R50 to R55): what each of the 256 byte offsets names, and the
read and the plain write of one byte. Writing CMD issues a command, which is `hostWrite` in HostPort. -/

namespace Sys2Proof.Machine

/-- What a window offset names (R51). A register's byte is counted from 0, the least significant; the lowest offset
holds the most significant (R52). -/
inductive Slot where
  | wire (k : Fin 9)
  | param (k : Fin 7)
  | fa (k : Nat)
  | fb (k : Nat)
  | fc (k : Nat)
  | pa (k : Nat)
  | pb (k : Nat)
  | mask (k : Nat)
  | cmd
  | status
  | reserved
  deriving DecidableEq, Repr

/-- The byte map, row by row (R51); every offset not listed is reserved (R55). -/
def slotOf (off : Byte) : Slot :=
  match off with
  | 0x00#8 => .wire 0
  | 0x01#8 => .wire 1
  | 0x02#8 => .wire 2
  | 0x03#8 => .wire 3
  | 0x04#8 => .wire 4
  | 0x05#8 => .wire 5
  | 0x06#8 => .wire 6
  | 0x07#8 => .wire 7
  | 0x08#8 => .wire 8
  | 0x10#8 => .param 0
  | 0x11#8 => .param 1
  | 0x12#8 => .param 2
  | 0x13#8 => .param 3
  | 0x14#8 => .param 4
  | 0x15#8 => .param 5
  | 0x16#8 => .param 6
  | 0x18#8 => .fa 2
  | 0x19#8 => .fa 1
  | 0x1A#8 => .fa 0
  | 0x1C#8 => .fb 2
  | 0x1D#8 => .fb 1
  | 0x1E#8 => .fb 0
  | 0x20#8 => .fc 3
  | 0x21#8 => .fc 2
  | 0x22#8 => .fc 1
  | 0x23#8 => .fc 0
  | 0x24#8 => .pa 1
  | 0x25#8 => .pa 0
  | 0x26#8 => .pb 1
  | 0x27#8 => .pb 0
  | 0x28#8 => .mask 2
  | 0x29#8 => .mask 1
  | 0x2A#8 => .mask 0
  | 0x2C#8 => .cmd
  | 0x2D#8 => .status
  | _ => .reserved

/-- The byte a read of a slot returns (R51). -/
def readSlot (x : Slot) (s : State) : Byte :=
  match x with
  | .wire k => s.wire[k]
  | .param k => s.param[k]
  | .fa k => getByte s.fa k
  | .fb k => getByte s.fb k
  | .fc k => getByte s.fc k
  | .pa k => getByte s.pa k
  | .pb k => getByte s.pb k
  | .mask k => getByte s.mask k
  | .cmd => cmdRead s
  | .status => status s
  | .reserved => 0x00#8

/-- The state after a byte is written to a slot (R51): only the slot's register bits change, and STATUS and reserved
slots ignore it. The CMD slot stores nothing (R26); the command is issued by `hostWrite`. -/
def writeSlot (x : Slot) (v : Byte) (s : State) : State :=
  match x with
  | .wire k => s.setWire (s.wire.set k v)
  | .param k => s.setParam (s.param.set k v)
  | .fa k => s.setFA (putByte s.fa k v)
  | .fb k => s.setFB (putByte s.fb k v)
  | .fc k => s.setFC (putByte s.fc k v)
  | .pa k => s.setPA (putByte s.pa k v)
  | .pb k => s.setPB (putByte s.pb k v)
  | .mask k => s.setMask (putByte s.mask k v)
  | .cmd => s
  | .status => s
  | .reserved => s

/-- What the host reads at an offset (R51). This is the model's read of one byte. -/
def readWindow (off : Byte) (s : State) : Byte := readSlot (slotOf off) s

/-- The data effect of a host write at an offset (R51). -/
def writeWindow (off v : Byte) (s : State) : State := writeSlot (slotOf off) v s

end Sys2Proof.Machine
end

