-- ==== Sys2Proof/Machine/HostPort.lean ====
section
/-! DEFINITION. The host port (20_memory.md R50, R58; 30_encoding.md R80): what each host access does, whole and at
once. -/

namespace Sys2Proof.Machine

/-- Issue of command byte `v` (R80): a legal value performs its rule, any other raises IllegalCommand (R210). -/
def issue (v : Byte) (s : State) : Host.Outcome State Fault Refusal :=
  match decode v with
  | .ok i => exec i s
  | .error (.illegalCommand v) => raiseIllegalCommand v s

/-- `MemWrite(off, 1, v)`: at CMD it issues command `v`, elsewhere it writes the byte (R51, R80). -/
def hostWrite (off v : Byte) (s : State) : Host.Outcome State Fault Refusal :=
  match slotOf off with
  | .cmd => issue v s
  | x => .next (writeSlot x v s)

/-- `MemRead(off, 1)`: the byte goes to the host, and no register changes (R51, R61). -/
def hostRead (off : Byte) (s : State) : Host.Outcome State Fault Refusal :=
  .next (s.setReplies (s.replies ++ [readWindow off s]))

/-- One access of the host, or the platform's reset input. An access of another width than one byte is refused
(R62, U3). -/
def hostAccess (a : HostAccess) (s : State) : Host.Outcome State Fault Refusal :=
  match a with
  | .read off 1 => hostRead off s
  | .read _ bytes => .refused (.accessNotOneByte bytes)
  | .write off [v] => hostWrite off v s
  | .write _ data => .refused (.accessNotOneByte data.length)
  | .reset => .next (resetInput s)

/-- The offset of CMD, where a command is written (R21, R51). -/
def cmdOffset : Byte := 0x2C#8

end Sys2Proof.Machine
end

