-- ==== Sys2Proof/Machine/Step.lean ====
section
/-! DEFINITION. The step (10_state.md R20, R24; 70_reset_and_hazards.md R252): one host access, whole, in the order
the host makes them (20_memory.md R58). -/

namespace Sys2Proof.Machine

/-- One host access is one atomic step (R252). With no access waiting the core does nothing: it has no step of its
own (R20; log 3). -/
def step (s : State) : Host.Outcome State Fault Refusal :=
  match s.pending with
  | [] => .next s
  | a :: rest => hostAccess a (s.setPending rest)

/-- `s` with the write of command byte `w` to CMD as the host's next access, which is where a command comes from
(R24, R80; log 1). Every command is one byte (R85), so `nbits` selects nothing. -/
def State.withFetchWord (s : State) (_nbits w : Nat) : State :=
  s.setPending (.write cmdOffset [BitVec.ofNat 8 w] :: s.pending)

end Sys2Proof.Machine
end

