-- ==== Sys2Proof/Safety.lean ====
section
/-! DEFINITION. What counts as a safe run, in the terms the claims use: the invariant of the machine, the accesses the
interface has, the legal command values, what each command may write, and runs of several
commands and of several steps. -/

namespace Sys2Proof.Machine

/-- The invariant: the ROM image is well formed (R30 to R33). A machine with another image is refused before it runs
(93_implementation_defined.md U10), and no access writes a ROM (10_state.md R29). -/
abbrev State.Inv (s : State) : Prop := s.rom.WellFormed

/-- An access the interface has: one byte, or the reset input (R50, R62, R240). -/
abbrev HostAccess.OneByte (a : HostAccess) : Prop :=
  match a with
  | .read _ bytes => bytes = 1
  | .write _ data => data.length = 1
  | .reset => True

/-- Every access the host has still to make is one the interface has. -/
def State.OnlyByteAccesses (s : State) : Prop := ∀ a ∈ s.pending, a.OneByte

/-- The 17 legal values of CMD, as 30_encoding.md R82 lists them. -/
def legalValues : List Byte :=
  [0x00#8, 0x01#8, 0x02#8, 0x10#8, 0x11#8, 0x12#8, 0x18#8, 0x19#8, 0x1A#8, 0x20#8, 0x21#8, 0x28#8, 0x29#8, 0x30#8,
    0x31#8, 0x40#8, 0x41#8]

/-- The commands of a list, issued one after the other, each a command write of its own (R58). -/
def runCommands (l : List Instr) (s : State) : Host.Outcome State Fault Refusal :=
  match l with
  | [] => .next s
  | i :: rest =>
    match exec i s with
    | .next t => runCommands rest t
    | .fault r => .fault r
    | .refused r => .refused r

/-- The window offsets of the registers a command's rule writes, STATUS apart (R102 to R107, R121 to R124, R151, R152,
R171, R172, R174, R176, R200; the offsets are those of R51). -/
def destinationOffsets (i : Instr) : List Nat :=
  match i with
  | .nop => []
  | .gatherA => [0x18, 0x19, 0x1A]
  | .gatherB => [0x1C, 0x1D, 0x1E]
  | .gatherC => [0x20, 0x21, 0x22, 0x23]
  | .scatterA => [0x00, 0x01, 0x02, 0x03, 0x04, 0x05, 0x06, 0x07, 0x08]
  | .scatterB => [0x00, 0x01, 0x02, 0x03, 0x04, 0x05, 0x06, 0x07, 0x08]
  | .scatterC => [0x00, 0x01, 0x02, 0x03, 0x04, 0x05, 0x06, 0x07, 0x08]
  | .extractA => [0x24, 0x25]
  | .extractB => [0x26, 0x27]
  | .golay24Enc => [0x18, 0x19, 0x1A]
  | .golay23Enc => [0x1C, 0x1D, 0x1E]
  | .prngMask => [0x28, 0x29, 0x2A]
  | .scrambleB => [0x1C, 0x1D, 0x1E]
  | .unpackParam => [0x20, 0x21, 0x22, 0x23, 0x24, 0x25, 0x26, 0x27]
  | .packParam => [0x10, 0x11, 0x12, 0x13, 0x14, 0x15, 0x16]
  | .decode => [0x10, 0x11, 0x12, 0x13, 0x14, 0x15, 0x16, 0x18, 0x19, 0x1A, 0x1C, 0x1D, 0x1E, 0x20, 0x21, 0x22, 0x23,
      0x24, 0x25, 0x26, 0x27, 0x28, 0x29, 0x2A]
  | .encode => [0x00, 0x01, 0x02, 0x03, 0x04, 0x05, 0x06, 0x07, 0x08, 0x18, 0x19, 0x1A, 0x1C, 0x1D, 0x1E, 0x20, 0x21,
      0x22, 0x23, 0x24, 0x25, 0x26, 0x27, 0x28, 0x29, 0x2A]

/-- `s` with the WIRE bit at position `p` flipped: a channel error (42_block_code.md R127). -/
def flipWire (p : Nat) (s : State) : State := s.setWire (writeBit s.wire p (!readBit s.wire p))

/-- `n` steps lead from `s` to `t`. -/
def Runs (n : Nat) (s t : State) : Prop := Host.Core.run Sys2Proof.core n s = .next t

end Sys2Proof.Machine
end

