-- ==== Sys2Proof/Certificates/Slice0/Obligations.lean ====
section
/-! DEFINITION. The statements about the FEC core, from the numbered rules of spec/. -/

open Sys2Proof Sys2Proof.Machine

/-! ## Reset and the ROMs -/

/-- R240: the reset input makes every register of R21 zero and STATUS 0x00, leaves the ROMs, and performs no command;
the same values stand at power-on. -/
def Obligations.ResetClearsEveryRegister : Prop :=
  (∀ s : State, ∃ t, hostAccess .reset s = .next t ∧
    (∀ p < 72, readBit t.wire p = false) ∧ (∀ p < 56, readBit t.param p = false) ∧
    t.fa = 0#24 ∧ t.fb = 0#23 ∧ t.fc = 0#25 ∧ t.pa = 0#12 ∧ t.pb = 0#12 ∧ t.mask = 0#23 ∧
    t.ill = false ∧ status t = 0x00#8 ∧ t.rom = s.rom) ∧
  (∀ p < 72, readBit State.reset.wire p = false) ∧ (∀ p < 56, readBit State.reset.param p = false) ∧
  State.reset.fa = 0#24 ∧ State.reset.fb = 0#23 ∧ State.reset.fc = 0#25 ∧ State.reset.pa = 0#12 ∧
  State.reset.pb = 0#12 ∧ State.reset.mask = 0#23 ∧ State.reset.ill = false ∧ status State.reset = 0x00#8

/-- After reset, and after the reset input in any state, each of the 256 offsets reads 0x00. -/
def Obligations.ResetWindowReadsZero : Prop :=
  (∀ off, readWindow off State.reset = 0x00#8) ∧
  ∀ s off, ∃ t, hostAccess .reset s = .next t ∧ readWindow off t = 0x00#8

/-- The invariant holds at reset. It rests on the model's choice that the free ROM contents are well formed (log 4). -/
def Obligations.ResetRomIsWellFormed : Prop := State.reset.Inv

/-- The invariant is kept by every step, from every state that has it. Steps are the model's: the next access of a list
(log 1), or nothing (log 3). -/
def Obligations.StepKeepsRomWellFormed : Prop := ∀ s t : State, s.Inv → step s = .next t → t.Inv

/-- R29: no command and no host access writes a ROM, no read of the window depends on one, and a lookup ROM has an entry
for every index. -/
def Obligations.RomsAreReadOnlyAndUnmapped : Prop :=
  (∀ (a : HostAccess) (s t : State), hostAccess a s = .next t → t.rom = s.rom) ∧
  (∀ (i : Instr) (s t : State), exec i s = .next t → t.rom = s.rom) ∧
  (∀ (off : Byte) (s : State) (r : Rom), readWindow off { s with rom := r } = readWindow off s) ∧
  ∀ (T : RomTable) (x : Payload) (v : Fin 4096), v.val = x.toNat → romAt T x = T[v]

/-- The ROM contents Config can take (log 4) are exactly the well-formed ones. R32 and R33, which well-formedness holds, are
constraints the spec marks as its own (decisions D12, D13). -/
def Obligations.FreeRomsAreExactlyTheWellFormed : Prop :=
  ∀ r : Rom, r.WellFormed ↔
    ∃ (order : Equiv.Perm WirePos) (parity24 parity23 : Payload → BitVec 12) (prng : Payload → RomWord),
      r = Config.romOf order parity24 parity23 prng

/-- A proposed parameter set is accepted exactly when it meets every constraint, and what is then loaded holds the
proposed entries and is well formed (93_implementation_defined.md U10). -/
def Obligations.IllFormedImagesAreRefused : Prop :=
  ∀ m : RomImage,
    ((∃ r, m.load = .ok r) ↔
      m.permA.length = 24 ∧ m.permB.length = 23 ∧ m.permC.length = 25 ∧
      (∀ p ∈ m.permA ++ m.permB ++ m.permC, p < 72) ∧ (m.permA ++ m.permB ++ m.permC).Nodup ∧
      m.golay24.length = 4096 ∧ m.golay23.length = 4096 ∧ m.prng.length = 4096 ∧
      (∀ e ∈ m.golay24 ++ m.golay23 ++ m.prng, e < 2 ^ 24) ∧
      (∀ v < 4096, m.golay24.getD v 0 / 2 ^ 12 = v) ∧ (∀ v < 4096, m.golay23.getD v 0 / 2 ^ 12 = v)) ∧
    ∀ r, m.load = .ok r → r.WellFormed ∧
      r.permA.toList.map Fin.val = m.permA ∧ r.permB.toList.map Fin.val = m.permB ∧
      r.permC.toList.map Fin.val = m.permC ∧ r.golay24.toList.map BitVec.toNat = m.golay24 ∧
      r.golay23.toList.map BitVec.toNat = m.golay23 ∧ r.prng.toList.map BitVec.toNat = m.prng

/-! ## The step and the issue of commands -/

/-- One step is one host access, whole, taken from the head of the model's list of accesses to come (log 1); with none
waiting nothing happens (log 3). -/
def Obligations.StepPerformsTheNextAccess : Prop :=
  ∀ s : State, (s.pending = [] → step s = .next s) ∧
    ∀ a rest, s.pending = a :: rest → step s = hostAccess a { s with pending := rest }

/-- When the next access writes a command byte that decodes to `i`, the step is `exec i`, the access being taken from
the list first (log 1); and a command placed by `withFetchWord` is run by the very next step. -/
def Obligations.StepRunsDecodedCommand : Prop :=
  (∀ (s : State) (v : Byte) (i : Instr) (rest : List HostAccess),
    s.pending = .write 0x2C#8 [v] :: rest → decode v = .ok i → i.WellFormed →
      step s = exec i { s with pending := rest }) ∧
  ∀ (s : State) (i : Instr), step (s.withFetchWord 8 (encode i).toNat) = exec i s

/-- R80: a write to CMD issues the command: a legal value performs its rule and clears ILL, any other raises
IllegalCommand; and no other access issues a command. A read adds to the model's own list of replies (log 2). -/
def Obligations.CmdWriteIssuesCommand : Prop :=
  ∀ (s : State) (v : Byte),
    (v ∈ legalValues → ∃ i t, decode v = .ok i ∧ hostAccess (.write 0x2C#8 [v]) s = exec i s ∧
      exec i s = .next t ∧ t.ill = false) ∧
    (v ∉ legalValues → hostAccess (.write 0x2C#8 [v]) s = raiseIllegalCommand v s) ∧
    (∀ off, off ≠ 0x2C#8 → hostAccess (.write off [v]) s = .next (writeWindow off v s)) ∧
    ∀ off t, hostAccess (.read off 1) s = .next t → t = { s with replies := t.replies }

/-- R210: an illegal value sets STATUS.ILL and changes nothing else, the write completes, and nothing but such a write
ever sets it. -/
def Obligations.IllegalCommandOnlySetsIll : Prop :=
  (∀ (s : State) (v : Byte), v ∉ legalValues →
    hostAccess (.write 0x2C#8 [v]) s = .next { s with ill := true } ∧
    readWindow 0x2D#8 { s with ill := true } = 0x01#8) ∧
  ∀ (a : HostAccess) (s t : State), hostAccess a s = .next t → s.ill = false → t.ill = true →
    ∃ v, v ∉ legalValues ∧ a = .write 0x2C#8 [v]

/-- R82 and R84: the 17 legal values decode to their commands; the other 239, in the ranges R84 lists, to none, and
writing one changes STATUS.ILL alone. -/
def Obligations.LegalAndIllegalCommandValues : Prop :=
  decode 0b00000000#8 = .ok .nop ∧ decode 0b00000001#8 = .ok .decode ∧ decode 0b00000010#8 = .ok .encode ∧
  decode 0b00010000#8 = .ok .gatherA ∧ decode 0b00010001#8 = .ok .gatherB ∧ decode 0b00010010#8 = .ok .gatherC ∧
  decode 0b00011000#8 = .ok .scatterA ∧ decode 0b00011001#8 = .ok .scatterB ∧ decode 0b00011010#8 = .ok .scatterC ∧
  decode 0b00100000#8 = .ok .extractA ∧ decode 0b00100001#8 = .ok .extractB ∧
  decode 0b00101000#8 = .ok .golay24Enc ∧ decode 0b00101001#8 = .ok .golay23Enc ∧
  decode 0b00110000#8 = .ok .prngMask ∧ decode 0b00110001#8 = .ok .scrambleB ∧
  decode 0b01000000#8 = .ok .unpackParam ∧ decode 0b01000001#8 = .ok .packParam ∧
  legalValues.length = 17 ∧ ((List.range 256).filter fun v => BitVec.ofNat 8 v ∉ legalValues).length = 239 ∧
  (∀ v : Byte, v ∉ legalValues ↔
    (0x50 ≤ v.toNat ∧ v.toNat ≤ 0xFF) ∨ (0x03 ≤ v.toNat ∧ v.toNat ≤ 0x0F) ∨ (0x13 ≤ v.toNat ∧ v.toNat ≤ 0x17) ∨
    (0x1B ≤ v.toNat ∧ v.toNat ≤ 0x1F) ∨ (0x22 ≤ v.toNat ∧ v.toNat ≤ 0x27) ∨ (0x2A ≤ v.toNat ∧ v.toNat ≤ 0x2F) ∨
    (0x32 ≤ v.toNat ∧ v.toNat ≤ 0x3F) ∨ (0x42 ≤ v.toNat ∧ v.toNat ≤ 0x4F)) ∧
  (∀ v : Byte, v ∉ legalValues → decode v = .error (.illegalCommand v)) ∧
  ∀ (s : State) (v : Byte), v ∉ legalValues → hostAccess (.write 0x2C#8 [v]) s = .next { s with ill := true }

/-- Decoding and encoding agree in both directions: no byte has two readings, and there is no longer form. -/
def Obligations.DecodeInvertsEncode : Prop :=
  (∀ (v : Byte) (i : Instr), decode v = .ok i ↔ v = encode i) ∧
  (∀ i : Instr, i.WellFormed ∧ decodeTableWord 8 (encode i).toNat = some i) ∧
  ∀ nbits w : Nat, nbits ≠ 8 ∨ 256 ≤ w → decodeTableWord nbits w = none

/-- R81: what the fields GRP and FN of a legal value say of its command. -/
def Obligations.CommandFieldsSelectCommand : Prop :=
  ∀ (v : Byte) (i : Instr), decode v = .ok i →
    (commandGroup v = 0x0#4 ∧
      ((commandFunction v = 0#4 ∧ i = .nop) ∨ (commandFunction v = 1#4 ∧ i = .decode) ∨
        (commandFunction v = 2#4 ∧ i = .encode))) ∨
    (commandGroup v = 0x1#4 ∧ (commandFunction v).getLsbD 2 = false ∧
      (((commandFunction v).getLsbD 3 = false ∧
          (((commandFunction v).extractLsb' 0 2 = 0#2 ∧ i = .gatherA) ∨
            ((commandFunction v).extractLsb' 0 2 = 1#2 ∧ i = .gatherB) ∨
            ((commandFunction v).extractLsb' 0 2 = 2#2 ∧ i = .gatherC))) ∨
        ((commandFunction v).getLsbD 3 = true ∧
          (((commandFunction v).extractLsb' 0 2 = 0#2 ∧ i = .scatterA) ∨
            ((commandFunction v).extractLsb' 0 2 = 1#2 ∧ i = .scatterB) ∨
            ((commandFunction v).extractLsb' 0 2 = 2#2 ∧ i = .scatterC))))) ∨
    (commandGroup v = 0x2#4 ∧ (commandFunction v).extractLsb' 1 2 = 0#2 ∧
      (((commandFunction v).getLsbD 3 = false ∧
          (((commandFunction v).getLsbD 0 = false ∧ i = .extractA) ∨
            ((commandFunction v).getLsbD 0 = true ∧ i = .extractB))) ∨
        ((commandFunction v).getLsbD 3 = true ∧
          (((commandFunction v).getLsbD 0 = false ∧ i = .golay24Enc) ∨
            ((commandFunction v).getLsbD 0 = true ∧ i = .golay23Enc))))) ∨
    (commandGroup v = 0x3#4 ∧
      ((commandFunction v = 0#4 ∧ i = .prngMask) ∨ (commandFunction v = 1#4 ∧ i = .scrambleB))) ∨
    (commandGroup v = 0x4#4 ∧
      ((commandFunction v = 0#4 ∧ i = .unpackParam) ∨ (commandFunction v = 1#4 ∧ i = .packParam)))

/-! ## The register window -/

/-- R51: the byte map, its read column and its write column, row by row; a write changes only the bits its row names. -/
def Obligations.WindowByteMap : Prop :=
  ∀ (s : State) (v : Byte),
    (∀ k : Fin 9, readWindow (BitVec.ofNat 8 k.val) s = s.wire[k] ∧
      hostAccess (.write (BitVec.ofNat 8 k.val) [v]) s = .next { s with wire := s.wire.set k v }) ∧
    (∀ k : Fin 7, readWindow (BitVec.ofNat 8 (0x10 + k.val)) s = s.param[k] ∧
      hostAccess (.write (BitVec.ofNat 8 (0x10 + k.val)) [v]) s = .next { s with param := s.param.set k v }) ∧
    (readWindow 0x18#8 s = s.fa.extractLsb' 16 8 ∧
      hostAccess (.write 0x18#8 [v]) s = .next { s with fa := v ++ s.fa.extractLsb' 0 16 }) ∧
    (readWindow 0x19#8 s = s.fa.extractLsb' 8 8 ∧
      hostAccess (.write 0x19#8 [v]) s =
        .next { s with fa := s.fa.extractLsb' 16 8 ++ v ++ s.fa.extractLsb' 0 8 }) ∧
    (readWindow 0x1A#8 s = s.fa.extractLsb' 0 8 ∧
      hostAccess (.write 0x1A#8 [v]) s = .next { s with fa := s.fa.extractLsb' 8 16 ++ v }) ∧
    (readWindow 0x1C#8 s = 0#1 ++ s.fb.extractLsb' 16 7 ∧
      hostAccess (.write 0x1C#8 [v]) s = .next { s with fb := v.extractLsb' 0 7 ++ s.fb.extractLsb' 0 16 }) ∧
    (readWindow 0x1D#8 s = s.fb.extractLsb' 8 8 ∧
      hostAccess (.write 0x1D#8 [v]) s =
        .next { s with fb := s.fb.extractLsb' 16 7 ++ v ++ s.fb.extractLsb' 0 8 }) ∧
    (readWindow 0x1E#8 s = s.fb.extractLsb' 0 8 ∧
      hostAccess (.write 0x1E#8 [v]) s = .next { s with fb := s.fb.extractLsb' 8 15 ++ v }) ∧
    (readWindow 0x20#8 s = 0#7 ++ s.fc.extractLsb' 24 1 ∧
      hostAccess (.write 0x20#8 [v]) s = .next { s with fc := v.extractLsb' 0 1 ++ s.fc.extractLsb' 0 24 }) ∧
    (readWindow 0x21#8 s = s.fc.extractLsb' 16 8 ∧
      hostAccess (.write 0x21#8 [v]) s =
        .next { s with fc := s.fc.extractLsb' 24 1 ++ v ++ s.fc.extractLsb' 0 16 }) ∧
    (readWindow 0x22#8 s = s.fc.extractLsb' 8 8 ∧
      hostAccess (.write 0x22#8 [v]) s =
        .next { s with fc := s.fc.extractLsb' 16 9 ++ v ++ s.fc.extractLsb' 0 8 }) ∧
    (readWindow 0x23#8 s = s.fc.extractLsb' 0 8 ∧
      hostAccess (.write 0x23#8 [v]) s = .next { s with fc := s.fc.extractLsb' 8 17 ++ v }) ∧
    (readWindow 0x24#8 s = 0#4 ++ s.pa.extractLsb' 8 4 ∧
      hostAccess (.write 0x24#8 [v]) s = .next { s with pa := v.extractLsb' 0 4 ++ s.pa.extractLsb' 0 8 }) ∧
    (readWindow 0x25#8 s = s.pa.extractLsb' 0 8 ∧
      hostAccess (.write 0x25#8 [v]) s = .next { s with pa := s.pa.extractLsb' 8 4 ++ v }) ∧
    (readWindow 0x26#8 s = 0#4 ++ s.pb.extractLsb' 8 4 ∧
      hostAccess (.write 0x26#8 [v]) s = .next { s with pb := v.extractLsb' 0 4 ++ s.pb.extractLsb' 0 8 }) ∧
    (readWindow 0x27#8 s = s.pb.extractLsb' 0 8 ∧
      hostAccess (.write 0x27#8 [v]) s = .next { s with pb := s.pb.extractLsb' 8 4 ++ v }) ∧
    (readWindow 0x28#8 s = 0#1 ++ s.mask.extractLsb' 16 7 ∧
      hostAccess (.write 0x28#8 [v]) s = .next { s with mask := v.extractLsb' 0 7 ++ s.mask.extractLsb' 0 16 }) ∧
    (readWindow 0x29#8 s = s.mask.extractLsb' 8 8 ∧
      hostAccess (.write 0x29#8 [v]) s =
        .next { s with mask := s.mask.extractLsb' 16 7 ++ v ++ s.mask.extractLsb' 0 8 }) ∧
    (readWindow 0x2A#8 s = s.mask.extractLsb' 0 8 ∧
      hostAccess (.write 0x2A#8 [v]) s = .next { s with mask := s.mask.extractLsb' 8 15 ++ v }) ∧
    (readWindow 0x2C#8 s = 0x00#8 ∧ hostAccess (.write 0x2C#8 [v]) s = issue v s) ∧
    (readWindow 0x2D#8 s = 0#7 ++ BitVec.ofBool s.ill ∧ hostAccess (.write 0x2D#8 [v]) s = .next s) ∧
    ∀ off : Byte,
      (0x09 ≤ off.toNat ∧ off.toNat ≤ 0x0F) ∨ off = 0x17#8 ∨ off = 0x1B#8 ∨ off = 0x1F#8 ∨ off = 0x2B#8 ∨
        0x2E ≤ off.toNat →
      readWindow off s = 0x00#8 ∧ hostAccess (.write off [v]) s = .next s

/-- R54: the container bits above FB, FC, PA, PB and MASK read 0, and a write to them is ignored. -/
def Obligations.ContainerBitsReadZeroAndIgnoreWrites : Prop :=
  ∀ (s : State) (v w : Byte),
    ((readWindow 0x1C#8 s).getLsbD 7 = false ∧ (readWindow 0x20#8 s).extractLsb' 1 7 = 0#7 ∧
      (readWindow 0x24#8 s).extractLsb' 4 4 = 0#4 ∧ (readWindow 0x26#8 s).extractLsb' 4 4 = 0#4 ∧
      (readWindow 0x28#8 s).getLsbD 7 = false) ∧
    (v.extractLsb' 0 7 = w.extractLsb' 0 7 →
      hostAccess (.write 0x1C#8 [v]) s = hostAccess (.write 0x1C#8 [w]) s ∧
      hostAccess (.write 0x28#8 [v]) s = hostAccess (.write 0x28#8 [w]) s) ∧
    (v.extractLsb' 0 1 = w.extractLsb' 0 1 →
      hostAccess (.write 0x20#8 [v]) s = hostAccess (.write 0x20#8 [w]) s) ∧
    (v.extractLsb' 0 4 = w.extractLsb' 0 4 →
      hostAccess (.write 0x24#8 [v]) s = hostAccess (.write 0x24#8 [w]) s ∧
      hostAccess (.write 0x26#8 [v]) s = hostAccess (.write 0x26#8 [w]) s) ∧
    ∃ t, hostAccess (.write 0x1C#8 [0xFF#8]) s = .next t ∧ t.fb.extractLsb' 16 7 = 0x7F#7 ∧
      readWindow 0x1C#8 t = 0x7F#8

/-- R55: a reserved offset reads 0x00 and a write to it has no effect; neither access faults and neither touches
STATUS.ILL. -/
def Obligations.ReservedOffsetsAreInert : Prop :=
  ∀ (s : State) (off v : Byte),
    (0x09 ≤ off.toNat ∧ off.toNat ≤ 0x0F) ∨ off = 0x17#8 ∨ off = 0x1B#8 ∨ off = 0x1F#8 ∨ off = 0x2B#8 ∨
      0x2E ≤ off.toNat →
    readWindow off s = 0x00#8 ∧ hostAccess (.write off [v]) s = .next s ∧
    ∃ t, hostAccess (.read off 1) s = .next t ∧ t.ill = s.ill

/-- A byte written outside CMD reads back with only its register's own bits, and every other offset reads as before. -/
def Obligations.WrittenByteReadsBack : Prop :=
  ∀ (s : State) (off v : Byte), off ≠ 0x2C#8 → off ≠ 0x2D#8 →
    ∃ t, hostAccess (.write off [v]) s = .next t ∧
      readWindow off t = v &&&
        (if off.toNat ≤ 0x08 then 0xFF#8
         else if 0x10 ≤ off.toNat ∧ off.toNat ≤ 0x16 then 0xFF#8
         else if 0x18 ≤ off.toNat ∧ off.toNat ≤ 0x1A then 0xFF#8
         else if off = 0x1C#8 ∨ off = 0x28#8 then 0x7F#8
         else if off = 0x1D#8 ∨ off = 0x1E#8 ∨ off = 0x29#8 ∨ off = 0x2A#8 then 0xFF#8
         else if off = 0x20#8 then 0x01#8
         else if 0x21 ≤ off.toNat ∧ off.toNat ≤ 0x23 then 0xFF#8
         else if off = 0x24#8 ∨ off = 0x26#8 then 0x0F#8
         else if off = 0x25#8 ∨ off = 0x27#8 then 0xFF#8
         else 0x00#8) ∧
      ∀ off', off' ≠ off → readWindow off' t = readWindow off' s

/-- R52: the byte at the lowest offset holds a register's most significant bits. -/
def Obligations.RegistersAreBigEndian : Prop :=
  ∀ (s : State) (b0 b1 b2 b3 : Byte),
    (writeWindow 0x1A#8 b2 (writeWindow 0x19#8 b1 (writeWindow 0x18#8 b0 s))).fa = b0 ++ b1 ++ b2 ∧
    (writeWindow 0x1E#8 b2 (writeWindow 0x1D#8 b1 (writeWindow 0x1C#8 b0 s))).fb = b0.extractLsb' 0 7 ++ b1 ++ b2 ∧
    (writeWindow 0x23#8 b3 (writeWindow 0x22#8 b2 (writeWindow 0x21#8 b1 (writeWindow 0x20#8 b0 s)))).fc =
      b0.extractLsb' 0 1 ++ b1 ++ b2 ++ b3 ∧
    (writeWindow 0x25#8 b1 (writeWindow 0x24#8 b0 s)).pa = b0.extractLsb' 0 4 ++ b1 ∧
    (writeWindow 0x27#8 b1 (writeWindow 0x26#8 b0 s)).pb = b0.extractLsb' 0 4 ++ b1 ∧
    (writeWindow 0x2A#8 b2 (writeWindow 0x29#8 b1 (writeWindow 0x28#8 b0 s))).mask =
      b0.extractLsb' 0 7 ++ b1 ++ b2 ∧
    readBit s.wire 0 = (readWindow 0x00#8 s).getLsbD 7 ∧ readBit s.param 0 = (readWindow 0x10#8 s).getLsbD 7

/-- R53: WIRE byte k holds frame positions 8k to 8k+7, position 8k in bit 7 and 8k+7 in bit 0, and PARAM the same; so
PARAM byte 6 holds position 48 in bit 7 and the padding positions in bits 6 to 0. -/
def Obligations.FramePositionsInBytes : Prop :=
  ∀ s : State,
    (∀ (k : Fin 9) (j : Fin 8),
      readBit s.wire (8 * k.val + j.val) = (readWindow (BitVec.ofNat 8 k.val) s).getLsbD (7 - j.val)) ∧
    (∀ (k : Fin 7) (j : Fin 8),
      readBit s.param (8 * k.val + j.val) = (readWindow (BitVec.ofNat 8 (0x10 + k.val)) s).getLsbD (7 - j.val)) ∧
    readBit s.param 48 = (readWindow 0x16#8 s).getLsbD 7 ∧
    ∀ j : Fin 7, readBit s.param (49 + j.val) = (readWindow 0x16#8 s).getLsbD (6 - j.val)

/-- R56: the two bit primitives, over a buffer of any length and at every position in it. -/
def Obligations.BitPrimitivesReadAndWriteOneBit : Prop :=
  ∀ (n : Nat) (buf : Vector Byte n) (p : Fin (8 * n)) (b : Bool),
    (∀ k : Fin n, k.val = p.val / 8 → readBit buf p.val = ((buf[k] >>> (7 - p.val % 8)) &&& 1#8 == 1#8)) ∧
    readBit (writeBit buf p.val b) p.val = b ∧
    ∀ q : Fin (8 * n), q ≠ p → readBit (writeBit buf p.val b) q.val = readBit buf q.val

/-- R61: no read changes a register; a data write made twice is one write; STATUS and reserved offsets ignore writes; and
a command made twice need not be one command. The replies are the model's own field (log 2). -/
def Obligations.SideEffectsOfAccesses : Prop :=
  (∀ (s : State) (off : Byte), ∃ t, hostAccess (.read off 1) s = .next t ∧ t = { s with replies := t.replies }) ∧
  (∀ (s t : State) (off v : Byte), off ≠ 0x2C#8 → hostAccess (.write off [v]) s = .next t →
    hostAccess (.write off [v]) t = .next t) ∧
  (∀ (s : State) (v : Byte), hostAccess (.write 0x2D#8 [v]) s = .next s) ∧
  (∀ (s : State) (off v : Byte),
    (0x09 ≤ off.toNat ∧ off.toNat ≤ 0x0F) ∨ off = 0x17#8 ∨ off = 0x1B#8 ∨ off = 0x1F#8 ∨ off = 0x2B#8 ∨
      0x2E ≤ off.toNat → hostAccess (.write off [v]) s = .next s) ∧
  (∀ (s : State) (v : Byte), ∃ t, hostAccess (.write 0x2C#8 [v]) s = .next t ∧
    t.ill = decide (v ∉ legalValues)) ∧
  ∃ s t u : State, hostAccess (.write 0x2C#8 [0x31#8]) s = .next t ∧ hostAccess (.write 0x2C#8 [0x31#8]) t = .next u ∧
    t.fb ≠ s.fb ∧ u.fb = s.fb

/-- R211: STATUS.ILL changes only at a CMD write, cleared by a legal value and set by an illegal one, and reset clears
it. -/
def Obligations.IllChangesOnlyAtCommandWrite : Prop :=
  ∀ (a : HostAccess) (s t : State), hostAccess a s = .next t →
    (∀ v, a = .write 0x2C#8 [v] → t.ill = decide (v ∉ legalValues)) ∧
    (a = .reset → t.ill = false) ∧
    ((∀ v, a ≠ .write 0x2C#8 [v]) → a ≠ .reset → t.ill = s.ill)

/-- R214: every host access completes; reserved offsets, writes to STATUS and reads of CMD raise nothing. -/
def Obligations.EveryHostAccessCompletes : Prop :=
  (∀ (a : HostAccess) (s : State), a.OneByte → ∃ t, hostAccess a s = .next t) ∧
  (∀ (s : State) (v : Byte), hostAccess (.write 0x2D#8 [v]) s = .next s) ∧
  (∀ s : State, ∃ t, hostAccess (.read 0x2C#8 1) s = .next t ∧ t.ill = s.ill) ∧
  ∀ (s : State) (off v : Byte),
    (0x09 ≤ off.toNat ∧ off.toNat ≤ 0x0F) ∨ off = 0x17#8 ∨ off = 0x1B#8 ∨ off = 0x1F#8 ∨ off = 0x2B#8 ∨
      0x2E ≤ off.toNat →
    (∃ t, hostAccess (.read off 1) s = .next t ∧ t.ill = s.ill) ∧
    ∃ t, hostAccess (.write off [v]) s = .next t ∧ t.ill = s.ill

/-- An access of another width than one byte stops with the refusal of that name. For the wider accesses the spec asks for
this (R62, 93_implementation_defined.md U3); of an access of no byte it does not speak, and refusing that one with the
others is the model's choice (log 8). -/
def Obligations.WideAccessIsRefused : Prop :=
  ∀ (s : State) (off : Byte),
    (∀ n, n ≠ 1 → hostAccess (.read off n) s = .refused (.accessNotOneByte n)) ∧
    ∀ data : List Byte, data.length ≠ 1 →
      hostAccess (.write off data) s = .refused (.accessNotOneByte data.length)

/-- The window shows every register and nothing more: two states read alike at all 256 offsets exactly when their
registers are equal. -/
def Obligations.WindowShowsExactlyTheRegisters : Prop :=
  ∀ s t : State, (∀ off, readWindow off s = readWindow off t) ↔
    s.wire = t.wire ∧ s.param = t.param ∧ s.fa = t.fa ∧ s.fb = t.fb ∧ s.fc = t.fc ∧ s.pa = t.pa ∧ s.pb = t.pb ∧
      s.mask = t.mask ∧ s.ill = t.ill

/-- A run of reads returns the window's bytes in order and changes no register; the list of accesses (log 1) and the list
of replies (log 2) are the model's own fields. -/
def Obligations.ReadsReturnWindowBytesInOrder : Prop :=
  ∀ (offs : List Byte) (s : State), s.pending = offs.map (fun off => .read off 1) →
    Runs offs.length s
      { s with pending := [], replies := s.replies ++ offs.map (fun off => readWindow off s) }

/-- A run over accesses of one byte never stops: after any number of steps there is a next state, with those accesses
gone and the same ROMs. That each step takes one access off a list is the model's choice (log 1), and so is that steps past
the end of the list change nothing (log 3, read from R20 and R241). -/
def Obligations.RunsOverByteAccessesNeverStop : Prop :=
  ∀ (n : Nat) (s : State), s.OnlyByteAccesses →
    ∃ t, Runs n s t ∧ t.pending = s.pending.drop n ∧ t.rom = s.rom

/-- The model's choice of host addresses (log 9): the window's offsets stand one after the other from a free base, which no
rule of the machine reads; each offset is found again from its address, and other addresses give no offset. The spec leaves
only the base open ("WINDOW_BASE and left open", R50). -/
def Obligations.WindowStandsAtAnyBase : Prop :=
  (∀ off : Byte, Config.offsetAt (Config.hostAddress off) = some off) ∧
  ∀ (addr : Nat) (off : Byte), Config.offsetAt addr = some off → addr = Config.hostAddress off

/-! ## The commands -/

/-- R212: no legal command raises an exception or records an error, whatever the registers and the tables hold. -/
def Obligations.LegalCommandsNeverFail : Prop :=
  ∀ (i : Instr) (s : State), ∃ t, exec i s = .next t ∧ t.ill = false

/-- R200: NOP clears STATUS.ILL and changes no other register. What a read answers goes to the model's own list of replies
(log 2). -/
def Obligations.NopClearsIllAlone : Prop :=
  ∀ s : State, decode 0x00#8 = .ok .nop ∧ exec .nop s = .next { s with ill := false } ∧
    (status s = 0x01#8 → ∃ t u, hostAccess (.write 0x2C#8 [0x00#8]) s = .next t ∧
      hostAccess (.read 0x2D#8 1) t = .next u ∧ u.replies = s.replies ++ [0x00#8])

/-- R100, R102, R103, R104: a gather puts the WIRE bit at entry i of the field's table into bit n-1-i of the field
register, clears ILL and changes nothing else. -/
def Obligations.GatherReadsItsTable : Prop :=
  ∀ s : State,
    (∀ (n : Nat) (T : Vector WirePos n) (i : Fin n),
      (gather T s).getLsbD (n - 1 - i.val) = readBit s.wire (T[i]).val) ∧
    (decode 0x10#8 = .ok .gatherA ∧ ∃ t, exec .gatherA s = .next t ∧ t = { s with fa := t.fa, ill := false } ∧
      (∀ i : Fin 24, t.fa.getLsbD (23 - i.val) = readBit s.wire (s.rom.permA[i]).val) ∧
      ((∀ p < 72, readBit s.wire p = false) → t.fa = 0x000000#24) ∧
      ((∀ p < 72, readBit s.wire p = true) → t.fa = 0xFFFFFF#24)) ∧
    (decode 0x11#8 = .ok .gatherB ∧ ∃ t, exec .gatherB s = .next t ∧ t = { s with fb := t.fb, ill := false } ∧
      (∀ i : Fin 23, t.fb.getLsbD (22 - i.val) = readBit s.wire (s.rom.permB[i]).val) ∧
      ((∀ p < 72, readBit s.wire p = true) → t.fb = 0x7FFFFF#23)) ∧
    (decode 0x12#8 = .ok .gatherC ∧ ∃ t, exec .gatherC s = .next t ∧ t = { s with fc := t.fc, ill := false } ∧
      (∀ i : Fin 25, t.fc.getLsbD (24 - i.val) = readBit s.wire (s.rom.permC[i]).val) ∧
      ((∀ p < 72, readBit s.wire p = true) → t.fc = 0x1FFFFFF#25))

/-- R101, R105, R106, R107: a scatter writes bit n-1-i of the field register to the WIRE position that entry i of the
field's table names, the larger i winning at a repeated position; every other WIRE position and every other register
but ILL is unchanged. -/
def Obligations.ScatterWritesItsTable : Prop :=
  ∀ s : State,
    (∀ (n : Nat) (v : BitVec n) (T : Vector WirePos n), scatter v T s = { s with wire := (scatter v T s).wire } ∧
      (∀ q : WirePos, (∀ i : Fin n, T[i] ≠ q) → readBit (scatter v T s).wire q.val = readBit s.wire q.val) ∧
      ∀ i : Fin n, (∀ j : Fin n, i < j → T[j] ≠ T[i]) →
        readBit (scatter v T s).wire (T[i]).val = v.getLsbD (n - 1 - i.val)) ∧
    (decode 0x18#8 = .ok .scatterA ∧ ∃ t, exec .scatterA s = .next t ∧ t = { s with wire := t.wire, ill := false } ∧
      (∀ q : WirePos, (∀ i : Fin 24, s.rom.permA[i] ≠ q) → readBit t.wire q.val = readBit s.wire q.val) ∧
      ∀ i : Fin 24, (∀ j : Fin 24, i < j → s.rom.permA[j] ≠ s.rom.permA[i]) →
        readBit t.wire (s.rom.permA[i]).val = s.fa.getLsbD (23 - i.val)) ∧
    (decode 0x19#8 = .ok .scatterB ∧ ∃ t, exec .scatterB s = .next t ∧ t = { s with wire := t.wire, ill := false } ∧
      (∀ q : WirePos, (∀ i : Fin 23, s.rom.permB[i] ≠ q) → readBit t.wire q.val = readBit s.wire q.val) ∧
      ∀ i : Fin 23, (∀ j : Fin 23, i < j → s.rom.permB[j] ≠ s.rom.permB[i]) →
        readBit t.wire (s.rom.permB[i]).val = s.fb.getLsbD (22 - i.val)) ∧
    (decode 0x1A#8 = .ok .scatterC ∧ ∃ t, exec .scatterC s = .next t ∧ t = { s with wire := t.wire, ill := false } ∧
      (∀ q : WirePos, (∀ i : Fin 25, s.rom.permC[i] ≠ q) → readBit t.wire q.val = readBit s.wire q.val) ∧
      ∀ i : Fin 25, (∀ j : Fin 25, i < j → s.rom.permC[j] ≠ s.rom.permC[i]) →
        readBit t.wire (s.rom.permC[i]).val = s.fc.getLsbD (24 - i.val))

/-- R121, R122: extraction takes the high 12 bits of the field register, reads no parity bit, clears ILL and changes
nothing else. -/
def Obligations.ExtractTakesThePayloadBits : Prop :=
  ∀ s : State,
    (decode 0x20#8 = .ok .extractA ∧ ∃ t, exec .extractA s = .next t ∧ t = { s with pa := t.pa, ill := false } ∧
      t.pa.toNat = s.fa.toNat / 2 ^ 12 ∧ (∀ j < 12, t.pa.getLsbD j = s.fa.getLsbD (12 + j)) ∧
      (∀ f : BitVec 24, (∀ j < 12, f.getLsbD (12 + j) = s.fa.getLsbD (12 + j)) →
        ∃ u, exec .extractA { s with fa := f } = .next u ∧ u.pa = t.pa) ∧
      (s.fa = 0x000000#24 → t.pa = 0x000#12) ∧ (s.fa = 0xFFFFFF#24 → t.pa = 0xFFF#12) ∧
      (s.fa = 0xABCDEF#24 → t.pa = 0xABC#12)) ∧
    (decode 0x21#8 = .ok .extractB ∧ ∃ t, exec .extractB s = .next t ∧ t = { s with pb := t.pb, ill := false } ∧
      t.pb.toNat = s.fb.toNat / 2 ^ 11 ∧ (∀ j < 12, t.pb.getLsbD j = s.fb.getLsbD (11 + j)) ∧
      (∀ f : BitVec 23, (∀ j < 12, f.getLsbD (11 + j) = s.fb.getLsbD (11 + j)) →
        ∃ u, exec .extractB { s with fb := f } = .next u ∧ u.pb = t.pb) ∧
      (s.fb = 0x7FFFFF#23 → t.pb = 0xFFF#12) ∧ (s.fb = 0x400800#23 → t.pb = 0x801#12) ∧
      (s.fb = 0x55E11E#23 → t.pb = 0xABC#12))

/-- R123, R124: table encoding looks the payload up, drops bit 0 of a GOLAY23 entry, clears ILL and changes nothing else;
with a well-formed table the payload stands in the field register's high 12 bits. -/
def Obligations.GolayEncodeLooksUpThePayload : Prop :=
  ∀ s : State,
    (decode 0x28#8 = .ok .golay24Enc ∧ ∃ t, exec .golay24Enc s = .next t ∧ t = { s with fa := t.fa, ill := false } ∧
      (∀ v : Fin 4096, v.val = s.pa.toNat → t.fa = s.rom.golay24[v]) ∧
      (RomTable.Systematic s.rom.golay24 → ∀ j < 12, t.fa.getLsbD (12 + j) = s.pa.getLsbD j)) ∧
    (decode 0x29#8 = .ok .golay23Enc ∧ ∃ t, exec .golay23Enc s = .next t ∧ t = { s with fb := t.fb, ill := false } ∧
      (∀ v : Fin 4096, v.val = s.pb.toNat → t.fb.toNat = s.rom.golay23[v].toNat / 2) ∧
      (RomTable.Systematic s.rom.golay23 → ∀ j < 12, t.fb.getLsbD (11 + j) = s.pb.getLsbD j))

/-- R151, R152: PRNG_MASK takes the top 23 bits of the PRNG entry of PA; SCRAMBLE_B exclusive-ors MASK into FB and is its
own inverse; each clears ILL and changes nothing else. -/
def Obligations.ScramblerMasksFieldB : Prop :=
  ∀ s : State,
    (decode 0x30#8 = .ok .prngMask ∧ ∃ t, exec .prngMask s = .next t ∧ t = { s with mask := t.mask, ill := false } ∧
      (∀ v : Fin 4096, v.val = s.pa.toNat → t.mask.toNat = s.rom.prng[v].toNat / 2) ∧
      ∀ u : State, u.pa = s.pa → u.rom = s.rom → ∃ w, exec .prngMask u = .next w ∧ w.mask = t.mask) ∧
    (decode 0x31#8 = .ok .scrambleB ∧ ∃ t, exec .scrambleB s = .next t ∧ t = { s with fb := t.fb, ill := false } ∧
      (∀ j < 23, t.fb.getLsbD j = (s.fb.getLsbD j ^^ s.mask.getLsbD j)) ∧
      (s.mask = 0#23 → t.fb = s.fb) ∧
      runCommands [.scrambleB, .scrambleB] s = .next { s with ill := false } ∧
      (s.fb = 0x7FFFFF#23 → s.mask = 0x2AAAAA#23 → t.fb = 0x555555#23) ∧
      (s.fb = 0x55E11E#23 → s.mask = 0x1A6361#23 → t.fb = 0x4F827F#23))

/-- R171: UNPACK_PARAM loads PA, PB and FC from PARAM positions 0..11, 12..23 and 24..48, MSB-first, reads no padding,
clears ILL and changes nothing else. -/
def Obligations.UnpackLoadsTheFields : Prop :=
  ∀ s : State, decode 0x40#8 = .ok .unpackParam ∧
    ∃ t, exec .unpackParam s = .next t ∧ t = { s with pa := t.pa, pb := t.pb, fc := t.fc, ill := false } ∧
      (∀ i : Fin 12, t.pa.getLsbD (11 - i.val) = readBit s.param i.val) ∧
      (∀ i : Fin 12, t.pb.getLsbD (11 - i.val) = readBit s.param (12 + i.val)) ∧
      (∀ i : Fin 25, t.fc.getLsbD (24 - i.val) = readBit s.param (24 + i.val)) ∧
      (∀ f : ParamFrame, (∀ q < 49, readBit f q = readBit s.param q) →
        ∃ u, exec .unpackParam { s with param := f } = .next u ∧ u.pa = t.pa ∧ u.pb = t.pb ∧ u.fc = t.fc) ∧
      (s.param = #v[0xFF#8, 0xFF#8, 0xFF#8, 0xFF#8, 0xFF#8, 0xFF#8, 0xFF#8] →
        t.pa = 0xFFF#12 ∧ t.pb = 0xFFF#12 ∧ t.fc = 0x1FFFFFF#25) ∧
      (s.param = #v[0xAB#8, 0xC1#8, 0x23#8, 0xAA#8, 0xAA#8, 0xAA#8, 0x80#8] →
        t.pa = 0xABC#12 ∧ t.pb = 0x123#12 ∧ t.fc = 0x1555555#25)

/-- R172: PACK_PARAM stores PA, PB and FC to PARAM positions 0..11, 12..23 and 24..48, MSB-first, keeps the padding,
clears ILL and changes nothing else. -/
def Obligations.PackStoresTheFields : Prop :=
  ∀ s : State, decode 0x41#8 = .ok .packParam ∧
    ∃ t, exec .packParam s = .next t ∧ t = { s with param := t.param, ill := false } ∧
      (∀ i : Fin 12, readBit t.param i.val = s.pa.getLsbD (11 - i.val)) ∧
      (∀ i : Fin 12, readBit t.param (12 + i.val) = s.pb.getLsbD (11 - i.val)) ∧
      (∀ i : Fin 25, readBit t.param (24 + i.val) = s.fc.getLsbD (24 - i.val)) ∧
      (∀ q, 49 ≤ q → q < 56 → readBit t.param q = readBit s.param q) ∧
      (s.pa = 0#12 → s.pb = 0#12 → s.fc = 0#25 →
        s.param = #v[0xFF#8, 0xFF#8, 0xFF#8, 0xFF#8, 0xFF#8, 0xFF#8, 0xFF#8] →
        t.param = #v[0x00#8, 0x00#8, 0x00#8, 0x00#8, 0x00#8, 0x00#8, 0x7F#8]) ∧
      (s.pa = 0xABC#12 → s.pb = 0x123#12 → s.fc = 0x1555555#25 →
        s.param = #v[0x00#8, 0x00#8, 0x00#8, 0x00#8, 0x00#8, 0x00#8, 0x00#8] →
        t.param = #v[0xAB#8, 0xC1#8, 0x23#8, 0xAA#8, 0xAA#8, 0xAA#8, 0x80#8])

/-- R174: DECODE is its eight component commands in order; it leaves WIRE and the padding, ends with FB descrambled, and
on an all-zero WIRE gives PA = 0, FC = 0 and PB = PRNG[0][23:12]. -/
def Obligations.DecodeIsItsComponentSequence : Prop :=
  ∀ s : State, decode 0x01#8 = .ok .decode ∧
    ∃ t, exec .decode s = .next t ∧
      runCommands [.gatherA, .extractA, .gatherB, .prngMask, .scrambleB, .extractB, .gatherC, .packParam] s =
        .next t ∧
      t = { s with fa := t.fa, pa := t.pa, fb := t.fb, mask := t.mask, pb := t.pb, fc := t.fc, param := t.param,
                   ill := false } ∧
      (∀ i : Fin 24, t.fa.getLsbD (23 - i.val) = readBit s.wire (s.rom.permA[i]).val) ∧
      t.pa = t.fa.extractLsb' 12 12 ∧
      (∀ v : Fin 4096, v.val = t.pa.toNat → t.mask = s.rom.prng[v].extractLsb' 1 23) ∧
      (∀ i : Fin 23, t.fb.getLsbD (22 - i.val) =
        (readBit s.wire (s.rom.permB[i]).val ^^ t.mask.getLsbD (22 - i.val))) ∧
      t.pb = t.fb.extractLsb' 11 12 ∧
      (∀ i : Fin 25, t.fc.getLsbD (24 - i.val) = readBit s.wire (s.rom.permC[i]).val) ∧
      (∀ q, 49 ≤ q → q < 56 → readBit t.param q = readBit s.param q) ∧
      ((∀ p < 72, readBit s.wire p = false) →
        t.pa = 0#12 ∧ t.fc = 0#25 ∧ t.pb = (s.rom.prng[0]).extractLsb' 12 12)

/-- R176: ENCODE is its eight component commands in order, and leaves PARAM; with well-formed tables WIRE's earlier
contents do not matter, and neither does the order of the three scatters. -/
def Obligations.EncodeIsItsComponentSequence : Prop :=
  ∀ s : State, decode 0x02#8 = .ok .encode ∧
    ∃ t, exec .encode s = .next t ∧
      runCommands [.unpackParam, .golay24Enc, .prngMask, .golay23Enc, .scrambleB, .scatterA, .scatterB, .scatterC] s =
        .next t ∧
      t = { s with pa := t.pa, pb := t.pb, fc := t.fc, fa := t.fa, mask := t.mask, fb := t.fb, wire := t.wire,
                   ill := false } ∧
      (∀ i : Fin 12, t.pa.getLsbD (11 - i.val) = readBit s.param i.val) ∧
      (∀ i : Fin 12, t.pb.getLsbD (11 - i.val) = readBit s.param (12 + i.val)) ∧
      (∀ i : Fin 25, t.fc.getLsbD (24 - i.val) = readBit s.param (24 + i.val)) ∧
      (∀ v : Fin 4096, v.val = t.pa.toNat → t.fa = s.rom.golay24[v]) ∧
      (∀ v : Fin 4096, v.val = t.pa.toNat → t.mask = s.rom.prng[v].extractLsb' 1 23) ∧
      (∀ v : Fin 4096, v.val = t.pb.toNat → t.fb = s.rom.golay23[v].extractLsb' 1 23 ^^^ t.mask) ∧
      (s.rom.WellFormed →
        (∀ w : WireFrame, ∃ u, exec .encode { s with wire := w } = .next u ∧ u.wire = t.wire) ∧
        ∀ l : List Instr, l.Perm [.scatterA, .scatterB, .scatterC] →
          runCommands ([.unpackParam, .golay24Enc, .prngMask, .golay23Enc, .scrambleB] ++ l) s = .next t)

/-- Where each PARAM bit comes from after DECODE: fields A and C straight from WIRE, field B from WIRE under the mask. -/
def Obligations.DecodedParamBits : Prop :=
  ∀ s : State, ∃ t, exec .decode s = .next t ∧
    (∀ i : Fin 12, readBit t.param i.val = readBit s.wire (s.rom.permA[i.val]).val) ∧
    (∀ i : Fin 12, readBit t.param (12 + i.val) =
      (readBit s.wire (s.rom.permB[i.val]).val ^^ (romAt s.rom.prng t.pa).getLsbD (23 - i.val))) ∧
    ∀ i : Fin 25, readBit t.param (24 + i.val) = readBit s.wire (s.rom.permC[i]).val

/-- What each WIRE position holds after ENCODE, with well-formed tables: codeword A, codeword B under the mask, and field
C as it is. -/
def Obligations.EncodedWireBits : Prop :=
  ∀ s : State, s.rom.WellFormed → ∃ t, exec .encode s = .next t ∧
    (∀ i : Fin 24, readBit t.wire (s.rom.permA[i]).val = (romAt s.rom.golay24 t.pa).getLsbD (23 - i.val)) ∧
    (∀ i : Fin 23, readBit t.wire (s.rom.permB[i]).val =
      ((romAt s.rom.golay23 t.pb).getLsbD (23 - i.val) ^^ (romAt s.rom.prng t.pa).getLsbD (23 - i.val))) ∧
    ∀ i : Fin 25, readBit t.wire (s.rom.permC[i]).val = readBit s.param (24 + i.val)

/-- The frame of every command, as the host sees it: the offsets outside the command's destination registers and STATUS
read as before, and the ROMs and the host's side of the port (the model's own fields, logs 1 and 2) are unchanged. -/
def Obligations.CommandsChangeOnlyTheirDestinations : Prop :=
  ∀ (i : Instr) (s : State), ∃ t, exec i s = .next t ∧ t.rom = s.rom ∧ t.pending = s.pending ∧
    t.replies = s.replies ∧
    ∀ off : Byte, off ≠ 0x2D#8 → off.toNat ∉ destinationOffsets i → readWindow off t = readWindow off s

/-- PARAM padding, positions 49..55: no command writes it and no command reads it. -/
def Obligations.CommandsIgnorePadding : Prop :=
  ∀ (i : Instr) (s : State), ∃ t, exec i s = .next t ∧
    (∀ q, 49 ≤ q → q < 56 → readBit t.param q = readBit s.param q) ∧
    ∀ f : ParamFrame, (∀ q < 49, readBit f q = readBit s.param q) →
      ∃ u, exec i { s with param := f } = .next u ∧ u = { t with param := u.param } ∧
        ∀ q < 49, readBit u.param q = readBit t.param q

/-! ## Laws of the families -/

/-- With well-formed tables a field scattered and gathered again is the field, and a field gathered and scattered again
leaves WIRE as it was. -/
def Obligations.ScatterAndGatherAreInverse : Prop :=
  ∀ s : State, s.rom.WellFormed →
    (∃ t, runCommands [.scatterA, .gatherA] s = .next t ∧ t.fa = s.fa) ∧
    (∃ t, runCommands [.scatterB, .gatherB] s = .next t ∧ t.fb = s.fb) ∧
    (∃ t, runCommands [.scatterC, .gatherC] s = .next t ∧ t.fc = s.fc) ∧
    (∃ t, runCommands [.gatherA, .scatterA] s = .next t ∧ t.wire = s.wire) ∧
    (∃ t, runCommands [.gatherB, .scatterB] s = .next t ∧ t.wire = s.wire) ∧
    ∃ t, runCommands [.gatherC, .scatterC] s = .next t ∧ t.wire = s.wire

/-- With well-formed tables a scatter of one field does not change what a gather of another returns. -/
def Obligations.FieldsAreIndependentOnTheWire : Prop :=
  ∀ s : State, s.rom.WellFormed →
    (∃ t u, exec .gatherB s = .next t ∧ runCommands [.scatterA, .gatherB] s = .next u ∧ u.fb = t.fb) ∧
    (∃ t u, exec .gatherC s = .next t ∧ runCommands [.scatterA, .gatherC] s = .next u ∧ u.fc = t.fc) ∧
    (∃ t u, exec .gatherA s = .next t ∧ runCommands [.scatterB, .gatherA] s = .next u ∧ u.fa = t.fa) ∧
    (∃ t u, exec .gatherC s = .next t ∧ runCommands [.scatterB, .gatherC] s = .next u ∧ u.fc = t.fc) ∧
    (∃ t u, exec .gatherA s = .next t ∧ runCommands [.scatterC, .gatherA] s = .next u ∧ u.fa = t.fa) ∧
    ∃ t u, exec .gatherB s = .next t ∧ runCommands [.scatterC, .gatherB] s = .next u ∧ u.fb = t.fb

/-- With well-formed tables the three scatters, in any order, overwrite every WIRE bit: WIRE then depends on the tables
and on FA, FB and FC alone, neither on the order nor on what WIRE held. -/
def Obligations.ThreeScattersDetermineWire : Prop :=
  ∀ (l l' : List Instr) (s s' : State), l.Perm [.scatterA, .scatterB, .scatterC] →
    l'.Perm [.scatterA, .scatterB, .scatterC] → s.rom.WellFormed → s'.rom = s.rom →
    s'.fa = s.fa → s'.fb = s.fb → s'.fc = s.fc →
    ∃ t t', runCommands l s = .next t ∧ runCommands l' s' = .next t' ∧ t'.wire = t.wire

/-- With well-formed tables, encoding a payload and extracting it again gives it back, for both codes. -/
def Obligations.CodesGiveThePayloadBack : Prop :=
  ∀ s : State, s.rom.WellFormed →
    (∃ t, runCommands [.golay24Enc, .extractA] s = .next t ∧ t.pa = s.pa) ∧
    ∃ t, runCommands [.golay23Enc, .extractB] s = .next t ∧ t.pb = s.pb

/-- A flipped parity bit leaves the extracted payload; a flipped payload bit flips that bit of it; neither is recorded. -/
def Obligations.ExtractionNeverCorrects : Prop :=
  ∀ s : State, ∃ a b, exec .extractA s = .next a ∧ exec .extractB s = .next b ∧
    (∀ k < 12, ∃ u, exec .extractA { s with fa := s.fa ^^^ (1#24 <<< k) } = .next u ∧ u.pa = a.pa ∧ u.ill = false) ∧
    (∀ k < 12, ∃ u, exec .extractA { s with fa := s.fa ^^^ (1#24 <<< (12 + k)) } = .next u ∧
      u.pa = a.pa ^^^ (1#12 <<< k) ∧ u.ill = false) ∧
    (∀ k < 11, ∃ u, exec .extractB { s with fb := s.fb ^^^ (1#23 <<< k) } = .next u ∧ u.pb = b.pb ∧ u.ill = false) ∧
    ∀ k < 12, ∃ u, exec .extractB { s with fb := s.fb ^^^ (1#23 <<< (11 + k)) } = .next u ∧
      u.pb = b.pb ^^^ (1#12 <<< k) ∧ u.ill = false

/-- R150: the mask of a frame is PRNG[payloadA] >> 1, the same on encode and on decode. -/
def Obligations.MaskIsKeyedByPayloadA : Prop :=
  ∀ s : State,
    (∃ t, exec .decode s = .next t ∧ ∀ v : Fin 4096, v.val = t.pa.toNat → t.mask.toNat = s.rom.prng[v].toNat >>> 1) ∧
    ∃ t, exec .encode s = .next t ∧ ∀ v : Fin 4096, v.val = t.pa.toNat → t.mask.toNat = s.rom.prng[v].toNat >>> 1

/-- For the same payloads A and B, ENCODE gives the same scrambled codeword B, whatever field C and the other registers
hold. -/
def Obligations.ScramblingIsDeterministic : Prop :=
  ∀ s u : State, u.rom = s.rom → (∀ q < 24, readBit u.param q = readBit s.param q) →
    ∃ t w, exec .encode s = .next t ∧ exec .encode u = .next w ∧ w.fb = t.fb ∧ w.mask = t.mask

/-- ENCODE then DECODE gives PARAM back, padding and all, for every PARAM and every well-formed set of tables. -/
def Obligations.EncodeThenDecodeGivesParamBack : Prop :=
  ∀ s : State, s.rom.WellFormed →
    ∃ t u, exec .encode s = .next t ∧ t.param = s.param ∧ exec .decode t = .next u ∧ u.param = s.param ∧
      u.wire = t.wire ∧ u.pa = t.pa ∧ u.pb = t.pb ∧ u.fc = t.fc ∧ u.mask = t.mask

/-- Field C is never altered: DECODE copies it from its WIRE positions, and ENCODE then DECODE returns it whatever fields
A and B hold. -/
def Obligations.FieldCPassesThrough : Prop :=
  (∀ s : State, ∃ t, exec .decode s = .next t ∧
    ∀ i : Fin 25, readBit t.param (24 + i.val) = readBit s.wire (s.rom.permC[i]).val) ∧
  ∀ s : State, s.rom.WellFormed → ∃ t, runCommands [.encode, .decode] s = .next t ∧
    ∀ i : Fin 25, readBit t.wire (s.rom.permC[i]).val = readBit s.param (24 + i.val) ∧
      readBit t.param (24 + i.val) = readBit s.param (24 + i.val)

/-- DECODE then ENCODE gives WIRE back exactly when WIRE is a valid frame, one that ENCODE of some PARAM produces. -/
def Obligations.DecodeThenEncodeRestoresValidFramesOnly : Prop :=
  ∀ s : State, s.rom.WellFormed → ∃ t, runCommands [.decode, .encode] s = .next t ∧
    (t.wire = s.wire ↔ ∃ (f : ParamFrame) (u : State), exec .encode { s with param := f } = .next u ∧ u.wire = s.wire)

/-- What one channel error does to a DECODE, with well-formed tables: a parity bit of A or B changes nothing decoded; a
payload bit of A flips that bit of PA and leaves field C; a payload bit of B flips that bit of PB alone; a bit of C
flips that bit of FC alone; none is reported. -/
def Obligations.SingleChannelErrors : Prop :=
  ∀ s : State, s.rom.WellFormed → ∃ t, exec .decode s = .next t ∧
    (∀ i : Fin 24, 12 ≤ i.val → ∃ u, exec .decode (flipWire (s.rom.permA[i]).val s) = .next u ∧
      u.param = t.param ∧ u.mask = t.mask ∧ u.ill = false) ∧
    (∀ i : Fin 24, i.val < 12 → ∃ u, exec .decode (flipWire (s.rom.permA[i]).val s) = .next u ∧
      u.pa = t.pa ^^^ (1#12 <<< (11 - i.val)) ∧ u.fc = t.fc ∧ u.ill = false) ∧
    (∀ i : Fin 23, 12 ≤ i.val → ∃ u, exec .decode (flipWire (s.rom.permB[i]).val s) = .next u ∧
      u.param = t.param ∧ u.ill = false) ∧
    (∀ i : Fin 23, i.val < 12 → ∃ u, exec .decode (flipWire (s.rom.permB[i]).val s) = .next u ∧
      u.pb = t.pb ^^^ (1#12 <<< (11 - i.val)) ∧ u.pa = t.pa ∧ u.mask = t.mask ∧ u.fc = t.fc ∧ u.ill = false) ∧
    ∀ i : Fin 25, ∃ u, exec .decode (flipWire (s.rom.permC[i]).val s) = .next u ∧
      u.fc = t.fc ^^^ (1#25 <<< (24 - i.val)) ∧ u.pa = t.pa ∧ u.pb = t.pb ∧ u.mask = t.mask ∧ u.ill = false

/-- The transforms are pure: what DECODE leaves in the field registers and in PARAM 0..48 depends on WIRE and the tables
alone, and what ENCODE leaves in the field registers and in WIRE depends on PARAM 0..48 and well-formed tables alone. -/
def Obligations.TransformsArePureFunctions : Prop :=
  (∀ s u : State, u.rom = s.rom → u.wire = s.wire →
    ∃ t w, exec .decode s = .next t ∧ exec .decode u = .next w ∧ w.fa = t.fa ∧ w.fb = t.fb ∧ w.fc = t.fc ∧
      w.pa = t.pa ∧ w.pb = t.pb ∧ w.mask = t.mask ∧ ∀ q < 49, readBit w.param q = readBit t.param q) ∧
  ∀ s u : State, s.rom.WellFormed → u.rom = s.rom → (∀ q < 49, readBit u.param q = readBit s.param q) →
    ∃ t w, exec .encode s = .next t ∧ exec .encode u = .next w ∧ w.fa = t.fa ∧ w.fb = t.fb ∧ w.fc = t.fc ∧
      w.pa = t.pa ∧ w.pb = t.pb ∧ w.mask = t.mask ∧ w.wire = t.wire

/-- DECODE and ENCODE straight after reset, over any ROM image (the model's reset image among them). -/
def Obligations.TransformsStraightAfterReset : Prop :=
  ∀ r : Rom,
    (∃ t, exec .decode (State.withRom r) = .next t ∧ t.pa = 0#12 ∧ t.fc = 0#25 ∧
      t.pb = (r.prng[0]).extractLsb' 12 12) ∧
    (r.WellFormed → ∃ t, exec .encode (State.withRom r) = .next t ∧
      (∀ i : Fin 24, readBit t.wire (r.permA[i]).val = (r.golay24[0]).getLsbD (23 - i.val)) ∧
      (∀ i : Fin 23, readBit t.wire (r.permB[i]).val =
        ((r.golay23[0]).getLsbD (23 - i.val) ^^ (r.prng[0]).getLsbD (23 - i.val))) ∧
      ∀ i : Fin 25, readBit t.wire (r.permC[i]).val = false)

/-- Every order of the decode commands that keeps each producer before its consumer gives what DECODE gives: GATHER_B
anywhere before SCRAMBLE_B, GATHER_C anywhere before PACK_PARAM; and an order that breaks this still completes. -/
def Obligations.DecodeOrdersAgree : Prop :=
  (∀ (s : State) (b c : Nat), b ≤ 3 → c ≤ 6 →
    runCommands (([.gatherA, .extractA, .prngMask, .scrambleB, .extractB, .packParam].insertIdx b .gatherB).insertIdx c
      .gatherC) s = exec .decode s) ∧
  ∀ (l : List Instr) (s : State), ∃ t, runCommands l s = .next t
end

