-- ==== Sys2Proof/Laws/Bits.lean ====
section
/-! SUPPORT. What the bit and byte operations do, bit by bit: `putBit`, `getByte`, `putByte`, the frame primitives of
20_memory.md R56, and the gather and scatter loops of 41_permutation.md R100 and R101. -/

namespace Sys2Proof.Machine

theorem getLsbD_putBit {w : Nat} (x : BitVec w) (i j : Nat) (b : Bool) :
    (putBit x i b).getLsbD j = if j = i ∧ i < w then b else x.getLsbD j := by
  unfold putBit
  rcases Nat.lt_or_ge j w with hj | hj
  · by_cases hji : j = i
    · subst hji; cases b <;> simp [hj]
    · cases b
      · simp only [hj, hji, Bool.false_eq_true, if_false, false_and, BitVec.getLsbD_and, BitVec.getLsbD_not,
          BitVec.getLsbD_shiftLeft, BitVec.getLsbD_one]
        rcases Nat.lt_or_ge j i with h | h
        · simp [h]
        · simp [show ¬ j - i = 0 by omega]
      · simp [hj, hji]
        omega
  · cases b <;> simp [BitVec.getLsbD_of_ge _ _ hj]
    omega

theorem getLsbD_getByte {w : Nat} (x : BitVec w) (k j : Nat) :
    (getByte x k).getLsbD j = (decide (j < 8) && x.getLsbD (8 * k + j)) := by
  simp [getByte]

theorem getLsbD_putByte {w : Nat} (x : BitVec w) (k j : Nat) (v : Byte) (hw : 8 ≤ w) :
    (putByte x k v).getLsbD j =
      if 8 * k ≤ j ∧ j < 8 * k + 8 ∧ j < w then v.getLsbD (j - 8 * k) else x.getLsbD j := by
  unfold putByte
  rcases Nat.lt_or_ge j w with hj | hj
  · have hones : ∀ i, (0xFF#8).getLsbD i = decide (i < 8) := by
      intro i
      rcases Nat.lt_or_ge i 8 with h | h
      · interval_cases i <;> rfl
      · simp [BitVec.getLsbD_of_ge _ _ h, Nat.not_lt.mpr h]
    simp only [BitVec.getLsbD_or, BitVec.getLsbD_and, BitVec.getLsbD_not, BitVec.getLsbD_shiftLeft,
      BitVec.getLsbD_setWidth, hones, hj, decide_true, Bool.true_and]
    rcases Nat.lt_or_ge j (8 * k) with h1 | h1
    · simp [h1, Nat.not_le.mpr h1]
    · rcases Nat.lt_or_ge j (8 * k + 8) with h2 | h2
      · have h3 : j - 8 * k < 8 := by omega
        have h4 : j - 8 * k < w := by omega
        simp [h1, h2, h3, h4, Nat.not_lt.mpr h1]
      · have h3 : ¬ j - 8 * k < 8 := by omega
        have h4 : v.getLsbD (j - 8 * k) = false := BitVec.getLsbD_of_ge _ _ (by omega)
        simp [h3, h4, Nat.not_lt.mpr h2]
  · simp [BitVec.getLsbD_of_ge _ _ hj]; omega

theorem readBit_of_lt {n : Nat} (buf : Vector Byte n) (p : Nat) (h : p < 8 * n) :
    readBit buf p = (buf[p / 8]'(by omega)).getLsbD (7 - p % 8) := by
  have h' : p / 8 < n := by omega
  simp [readBit, h']

theorem readBit_of_ge {n : Nat} (buf : Vector Byte n) (p : Nat) (h : 8 * n ≤ p) : readBit buf p = false := by
  have h' : ¬ p / 8 < n := by omega
  simp [readBit, h']

theorem readBit_writeBit {n : Nat} (buf : Vector Byte n) (p q : Nat) (b : Bool) :
    readBit (writeBit buf p b) q = if q = p ∧ p < 8 * n then b else readBit buf q := by
  rcases Nat.lt_or_ge q (8 * n) with hq | hq
  · have hq' : q / 8 < n := by omega
    rw [readBit_of_lt _ _ hq, readBit_of_lt _ _ hq]
    unfold writeBit
    rw [Vector.getElem_setIfInBounds]
    by_cases hbyte : p / 8 = q / 8
    · have hp' : p / 8 < n := by omega
      simp only [hbyte, if_true, Vector.getElem?_eq_getElem hq', Option.getD_some, getLsbD_putBit]
      by_cases hpq : q = p
      · subst hpq; simp [hq]; omega
      · have : ¬ (7 - q % 8 = 7 - p % 8) := by omega
        simp [hpq, this]
    · have hne : q ≠ p := fun h => hbyte (by rw [h])
      simp [hbyte, hne]
  · rw [readBit_of_ge _ _ hq, readBit_of_ge _ _ hq]
    simp; omega

theorem readBit_writeBit_ne {n : Nat} (buf : Vector Byte n) {p q : Nat} (b : Bool) (h : q ≠ p) :
    readBit (writeBit buf p b) q = readBit buf q := by
  simp [readBit_writeBit, h]

/-- Two frames that agree at every position are the same frame. -/
theorem frame_ext {n : Nat} {a b : Vector Byte n} (h : ∀ p < 8 * n, readBit a p = readBit b p) : a = b := by
  refine Vector.ext fun k hk => BitVec.eq_of_getLsbD_eq fun j hj => ?_
  have := h (8 * k + (7 - j)) (by omega)
  rw [readBit_of_lt _ _ (by omega), readBit_of_lt _ _ (by omega)] at this
  have e1 : (8 * k + (7 - j)) / 8 = k := by omega
  have e2 : 7 - (8 * k + (7 - j)) % 8 = j := by omega
  simpa only [e1, e2] using this

theorem getMsbD_gatherBits {m n : Nat} (buf : Vector Byte m) (pos : Fin n → Nat) (i : Fin n) :
    (gatherBits buf pos).getMsbD i.val = readBit buf (pos i) := by
  simp [gatherBits, BitVec.getMsbD_ofFnBE]

theorem getLsbD_gatherBits {m n : Nat} (buf : Vector Byte m) (pos : Fin n → Nat) (i : Fin n) :
    (gatherBits buf pos).getLsbD (n - 1 - i.val) = readBit buf (pos i) := by
  rw [← getMsbD_gatherBits, BitVec.getMsbD_eq_getLsbD]; simp

theorem gatherBits_congr {m n : Nat} {a b : Vector Byte m} (pos : Fin n → Nat)
    (h : ∀ i, readBit a (pos i) = readBit b (pos i)) : gatherBits a pos = gatherBits b pos := by
  simp [gatherBits, h]

/-- The scatter loop over any list of logical bits, at a position none of them names. -/
theorem readBit_scatterLoop_of_forall_ne {m n : Nat} (v : BitVec n) (pos : Fin n → Nat) (l : List (Fin n))
    (buf : Vector Byte m) (q : Nat) (h : ∀ i ∈ l, pos i ≠ q) :
    readBit (l.foldl (fun b i => writeBit b (pos i) (v.getMsbD i.val)) buf) q = readBit buf q := by
  induction l generalizing buf with
  | nil => rfl
  | cons i l ih =>
    rw [List.foldl_cons, ih _ fun j hj => h j (List.mem_cons_of_mem i hj)]
    exact readBit_writeBit_ne _ _ (h i List.mem_cons_self).symm

theorem readBit_scatterBits_of_forall_ne {m n : Nat} (v : BitVec n) (pos : Fin n → Nat) (buf : Vector Byte m)
    (q : Nat) (h : ∀ i, pos i ≠ q) : readBit (scatterBits v pos buf) q = readBit buf q :=
  readBit_scatterLoop_of_forall_ne v pos _ buf q fun i _ => h i

/-- The scatter loop over a sorted list: at the position of `i`, with no later bit at the same position. -/
theorem readBit_scatterLoop_last {m n : Nat} (v : BitVec n) (pos : Fin n → Nat) (l : List (Fin n))
    (buf : Vector Byte m) (i : Fin n) (hl : l.Pairwise (· < ·)) (hi : i ∈ l) (hp : pos i < 8 * m)
    (hlast : ∀ j, i < j → pos j ≠ pos i) :
    readBit (l.foldl (fun b i => writeBit b (pos i) (v.getMsbD i.val)) buf) (pos i) = v.getMsbD i.val := by
  induction l generalizing buf with
  | nil => cases hi
  | cons a l ih =>
    rw [List.foldl_cons]
    rcases List.mem_cons.mp hi with rfl | hi
    · rw [readBit_scatterLoop_of_forall_ne _ _ _ _ _ fun j hj => hlast j ((List.pairwise_cons.mp hl).1 j hj)]
      simp [readBit_writeBit, hp]
    · exact ih _ (List.pairwise_cons.mp hl).2 hi

/-- Where no later bit goes to the same position, that position holds bit `n-1-i` of the value (R101). -/
theorem readBit_scatterBits_last {m n : Nat} (v : BitVec n) (pos : Fin n → Nat) (buf : Vector Byte m) (i : Fin n)
    (hp : pos i < 8 * m) (hlast : ∀ j, i < j → pos j ≠ pos i) :
    readBit (scatterBits v pos buf) (pos i) = v.getMsbD i.val :=
  readBit_scatterLoop_last v pos _ buf i (List.pairwise_lt_finRange n) (List.mem_finRange i) hp hlast

theorem readBit_scatterBits {m n : Nat} (v : BitVec n) (pos : Fin n → Nat) (buf : Vector Byte m) (i : Fin n)
    (hp : pos i < 8 * m) (hinj : Function.Injective pos) :
    readBit (scatterBits v pos buf) (pos i) = v.getMsbD i.val :=
  readBit_scatterBits_last v pos buf i hp fun _ hj h => absurd (hinj h) (ne_of_gt hj)

theorem gatherBits_scatterBits {m n : Nat} (v : BitVec n) (pos : Fin n → Nat) (buf : Vector Byte m)
    (hp : ∀ i, pos i < 8 * m) (hinj : Function.Injective pos) : gatherBits (scatterBits v pos buf) pos = v := by
  refine BitVec.eq_of_getMsbD_eq fun i hi => ?_
  rw [getMsbD_gatherBits _ _ ⟨i, hi⟩, readBit_scatterBits v pos buf ⟨i, hi⟩ (hp _) hinj]

theorem scatterBits_gatherBits {m n : Nat} (pos : Fin n → Nat) (buf : Vector Byte m)
    (hp : ∀ i, pos i < 8 * m) (hinj : Function.Injective pos) : scatterBits (gatherBits buf pos) pos buf = buf := by
  refine frame_ext fun q _ => ?_
  by_cases h : ∃ i, pos i = q
  · obtain ⟨i, rfl⟩ := h
    rw [readBit_scatterBits _ _ _ _ (hp i) hinj, getMsbD_gatherBits]
  · exact readBit_scatterBits_of_forall_ne _ _ _ _ fun i hi => h ⟨i, hi⟩

end Sys2Proof.Machine
end

