-- ==== Sys2Proof/Laws/State.lean ====
section
/-! SUPPORT. The setters of State: one lemma per field per setter, so that no later proof unfolds an update, and what
reset and the reset input leave in each field. -/

namespace Sys2Proof.Machine.State

@[simp] theorem setWire_wire (s : State) (v : WireFrame) : (s.setWire v).wire = v := rfl
@[simp] theorem setWire_param (s : State) (v : WireFrame) : (s.setWire v).param = s.param := rfl
@[simp] theorem setWire_fa (s : State) (v : WireFrame) : (s.setWire v).fa = s.fa := rfl
@[simp] theorem setWire_fb (s : State) (v : WireFrame) : (s.setWire v).fb = s.fb := rfl
@[simp] theorem setWire_fc (s : State) (v : WireFrame) : (s.setWire v).fc = s.fc := rfl
@[simp] theorem setWire_pa (s : State) (v : WireFrame) : (s.setWire v).pa = s.pa := rfl
@[simp] theorem setWire_pb (s : State) (v : WireFrame) : (s.setWire v).pb = s.pb := rfl
@[simp] theorem setWire_mask (s : State) (v : WireFrame) : (s.setWire v).mask = s.mask := rfl
@[simp] theorem setWire_ill (s : State) (v : WireFrame) : (s.setWire v).ill = s.ill := rfl
@[simp] theorem setWire_rom (s : State) (v : WireFrame) : (s.setWire v).rom = s.rom := rfl
@[simp] theorem setWire_pending (s : State) (v : WireFrame) : (s.setWire v).pending = s.pending := rfl
@[simp] theorem setWire_replies (s : State) (v : WireFrame) : (s.setWire v).replies = s.replies := rfl

@[simp] theorem setParam_wire (s : State) (v : ParamFrame) : (s.setParam v).wire = s.wire := rfl
@[simp] theorem setParam_param (s : State) (v : ParamFrame) : (s.setParam v).param = v := rfl
@[simp] theorem setParam_fa (s : State) (v : ParamFrame) : (s.setParam v).fa = s.fa := rfl
@[simp] theorem setParam_fb (s : State) (v : ParamFrame) : (s.setParam v).fb = s.fb := rfl
@[simp] theorem setParam_fc (s : State) (v : ParamFrame) : (s.setParam v).fc = s.fc := rfl
@[simp] theorem setParam_pa (s : State) (v : ParamFrame) : (s.setParam v).pa = s.pa := rfl
@[simp] theorem setParam_pb (s : State) (v : ParamFrame) : (s.setParam v).pb = s.pb := rfl
@[simp] theorem setParam_mask (s : State) (v : ParamFrame) : (s.setParam v).mask = s.mask := rfl
@[simp] theorem setParam_ill (s : State) (v : ParamFrame) : (s.setParam v).ill = s.ill := rfl
@[simp] theorem setParam_rom (s : State) (v : ParamFrame) : (s.setParam v).rom = s.rom := rfl
@[simp] theorem setParam_pending (s : State) (v : ParamFrame) : (s.setParam v).pending = s.pending := rfl
@[simp] theorem setParam_replies (s : State) (v : ParamFrame) : (s.setParam v).replies = s.replies := rfl

@[simp] theorem setFA_wire (s : State) (v : BitVec 24) : (s.setFA v).wire = s.wire := rfl
@[simp] theorem setFA_param (s : State) (v : BitVec 24) : (s.setFA v).param = s.param := rfl
@[simp] theorem setFA_fa (s : State) (v : BitVec 24) : (s.setFA v).fa = v := rfl
@[simp] theorem setFA_fb (s : State) (v : BitVec 24) : (s.setFA v).fb = s.fb := rfl
@[simp] theorem setFA_fc (s : State) (v : BitVec 24) : (s.setFA v).fc = s.fc := rfl
@[simp] theorem setFA_pa (s : State) (v : BitVec 24) : (s.setFA v).pa = s.pa := rfl
@[simp] theorem setFA_pb (s : State) (v : BitVec 24) : (s.setFA v).pb = s.pb := rfl
@[simp] theorem setFA_mask (s : State) (v : BitVec 24) : (s.setFA v).mask = s.mask := rfl
@[simp] theorem setFA_ill (s : State) (v : BitVec 24) : (s.setFA v).ill = s.ill := rfl
@[simp] theorem setFA_rom (s : State) (v : BitVec 24) : (s.setFA v).rom = s.rom := rfl
@[simp] theorem setFA_pending (s : State) (v : BitVec 24) : (s.setFA v).pending = s.pending := rfl
@[simp] theorem setFA_replies (s : State) (v : BitVec 24) : (s.setFA v).replies = s.replies := rfl

@[simp] theorem setFB_wire (s : State) (v : BitVec 23) : (s.setFB v).wire = s.wire := rfl
@[simp] theorem setFB_param (s : State) (v : BitVec 23) : (s.setFB v).param = s.param := rfl
@[simp] theorem setFB_fa (s : State) (v : BitVec 23) : (s.setFB v).fa = s.fa := rfl
@[simp] theorem setFB_fb (s : State) (v : BitVec 23) : (s.setFB v).fb = v := rfl
@[simp] theorem setFB_fc (s : State) (v : BitVec 23) : (s.setFB v).fc = s.fc := rfl
@[simp] theorem setFB_pa (s : State) (v : BitVec 23) : (s.setFB v).pa = s.pa := rfl
@[simp] theorem setFB_pb (s : State) (v : BitVec 23) : (s.setFB v).pb = s.pb := rfl
@[simp] theorem setFB_mask (s : State) (v : BitVec 23) : (s.setFB v).mask = s.mask := rfl
@[simp] theorem setFB_ill (s : State) (v : BitVec 23) : (s.setFB v).ill = s.ill := rfl
@[simp] theorem setFB_rom (s : State) (v : BitVec 23) : (s.setFB v).rom = s.rom := rfl
@[simp] theorem setFB_pending (s : State) (v : BitVec 23) : (s.setFB v).pending = s.pending := rfl
@[simp] theorem setFB_replies (s : State) (v : BitVec 23) : (s.setFB v).replies = s.replies := rfl

@[simp] theorem setFC_wire (s : State) (v : BitVec 25) : (s.setFC v).wire = s.wire := rfl
@[simp] theorem setFC_param (s : State) (v : BitVec 25) : (s.setFC v).param = s.param := rfl
@[simp] theorem setFC_fa (s : State) (v : BitVec 25) : (s.setFC v).fa = s.fa := rfl
@[simp] theorem setFC_fb (s : State) (v : BitVec 25) : (s.setFC v).fb = s.fb := rfl
@[simp] theorem setFC_fc (s : State) (v : BitVec 25) : (s.setFC v).fc = v := rfl
@[simp] theorem setFC_pa (s : State) (v : BitVec 25) : (s.setFC v).pa = s.pa := rfl
@[simp] theorem setFC_pb (s : State) (v : BitVec 25) : (s.setFC v).pb = s.pb := rfl
@[simp] theorem setFC_mask (s : State) (v : BitVec 25) : (s.setFC v).mask = s.mask := rfl
@[simp] theorem setFC_ill (s : State) (v : BitVec 25) : (s.setFC v).ill = s.ill := rfl
@[simp] theorem setFC_rom (s : State) (v : BitVec 25) : (s.setFC v).rom = s.rom := rfl
@[simp] theorem setFC_pending (s : State) (v : BitVec 25) : (s.setFC v).pending = s.pending := rfl
@[simp] theorem setFC_replies (s : State) (v : BitVec 25) : (s.setFC v).replies = s.replies := rfl

@[simp] theorem setPA_wire (s : State) (v : Payload) : (s.setPA v).wire = s.wire := rfl
@[simp] theorem setPA_param (s : State) (v : Payload) : (s.setPA v).param = s.param := rfl
@[simp] theorem setPA_fa (s : State) (v : Payload) : (s.setPA v).fa = s.fa := rfl
@[simp] theorem setPA_fb (s : State) (v : Payload) : (s.setPA v).fb = s.fb := rfl
@[simp] theorem setPA_fc (s : State) (v : Payload) : (s.setPA v).fc = s.fc := rfl
@[simp] theorem setPA_pa (s : State) (v : Payload) : (s.setPA v).pa = v := rfl
@[simp] theorem setPA_pb (s : State) (v : Payload) : (s.setPA v).pb = s.pb := rfl
@[simp] theorem setPA_mask (s : State) (v : Payload) : (s.setPA v).mask = s.mask := rfl
@[simp] theorem setPA_ill (s : State) (v : Payload) : (s.setPA v).ill = s.ill := rfl
@[simp] theorem setPA_rom (s : State) (v : Payload) : (s.setPA v).rom = s.rom := rfl
@[simp] theorem setPA_pending (s : State) (v : Payload) : (s.setPA v).pending = s.pending := rfl
@[simp] theorem setPA_replies (s : State) (v : Payload) : (s.setPA v).replies = s.replies := rfl

@[simp] theorem setPB_wire (s : State) (v : Payload) : (s.setPB v).wire = s.wire := rfl
@[simp] theorem setPB_param (s : State) (v : Payload) : (s.setPB v).param = s.param := rfl
@[simp] theorem setPB_fa (s : State) (v : Payload) : (s.setPB v).fa = s.fa := rfl
@[simp] theorem setPB_fb (s : State) (v : Payload) : (s.setPB v).fb = s.fb := rfl
@[simp] theorem setPB_fc (s : State) (v : Payload) : (s.setPB v).fc = s.fc := rfl
@[simp] theorem setPB_pa (s : State) (v : Payload) : (s.setPB v).pa = s.pa := rfl
@[simp] theorem setPB_pb (s : State) (v : Payload) : (s.setPB v).pb = v := rfl
@[simp] theorem setPB_mask (s : State) (v : Payload) : (s.setPB v).mask = s.mask := rfl
@[simp] theorem setPB_ill (s : State) (v : Payload) : (s.setPB v).ill = s.ill := rfl
@[simp] theorem setPB_rom (s : State) (v : Payload) : (s.setPB v).rom = s.rom := rfl
@[simp] theorem setPB_pending (s : State) (v : Payload) : (s.setPB v).pending = s.pending := rfl
@[simp] theorem setPB_replies (s : State) (v : Payload) : (s.setPB v).replies = s.replies := rfl

@[simp] theorem setMask_wire (s : State) (v : BitVec 23) : (s.setMask v).wire = s.wire := rfl
@[simp] theorem setMask_param (s : State) (v : BitVec 23) : (s.setMask v).param = s.param := rfl
@[simp] theorem setMask_fa (s : State) (v : BitVec 23) : (s.setMask v).fa = s.fa := rfl
@[simp] theorem setMask_fb (s : State) (v : BitVec 23) : (s.setMask v).fb = s.fb := rfl
@[simp] theorem setMask_fc (s : State) (v : BitVec 23) : (s.setMask v).fc = s.fc := rfl
@[simp] theorem setMask_pa (s : State) (v : BitVec 23) : (s.setMask v).pa = s.pa := rfl
@[simp] theorem setMask_pb (s : State) (v : BitVec 23) : (s.setMask v).pb = s.pb := rfl
@[simp] theorem setMask_mask (s : State) (v : BitVec 23) : (s.setMask v).mask = v := rfl
@[simp] theorem setMask_ill (s : State) (v : BitVec 23) : (s.setMask v).ill = s.ill := rfl
@[simp] theorem setMask_rom (s : State) (v : BitVec 23) : (s.setMask v).rom = s.rom := rfl
@[simp] theorem setMask_pending (s : State) (v : BitVec 23) : (s.setMask v).pending = s.pending := rfl
@[simp] theorem setMask_replies (s : State) (v : BitVec 23) : (s.setMask v).replies = s.replies := rfl

@[simp] theorem setIll_wire (s : State) (v : Bool) : (s.setIll v).wire = s.wire := rfl
@[simp] theorem setIll_param (s : State) (v : Bool) : (s.setIll v).param = s.param := rfl
@[simp] theorem setIll_fa (s : State) (v : Bool) : (s.setIll v).fa = s.fa := rfl
@[simp] theorem setIll_fb (s : State) (v : Bool) : (s.setIll v).fb = s.fb := rfl
@[simp] theorem setIll_fc (s : State) (v : Bool) : (s.setIll v).fc = s.fc := rfl
@[simp] theorem setIll_pa (s : State) (v : Bool) : (s.setIll v).pa = s.pa := rfl
@[simp] theorem setIll_pb (s : State) (v : Bool) : (s.setIll v).pb = s.pb := rfl
@[simp] theorem setIll_mask (s : State) (v : Bool) : (s.setIll v).mask = s.mask := rfl
@[simp] theorem setIll_ill (s : State) (v : Bool) : (s.setIll v).ill = v := rfl
@[simp] theorem setIll_rom (s : State) (v : Bool) : (s.setIll v).rom = s.rom := rfl
@[simp] theorem setIll_pending (s : State) (v : Bool) : (s.setIll v).pending = s.pending := rfl
@[simp] theorem setIll_replies (s : State) (v : Bool) : (s.setIll v).replies = s.replies := rfl

@[simp] theorem setPending_wire (s : State) (v : List HostAccess) : (s.setPending v).wire = s.wire := rfl
@[simp] theorem setPending_param (s : State) (v : List HostAccess) : (s.setPending v).param = s.param := rfl
@[simp] theorem setPending_fa (s : State) (v : List HostAccess) : (s.setPending v).fa = s.fa := rfl
@[simp] theorem setPending_fb (s : State) (v : List HostAccess) : (s.setPending v).fb = s.fb := rfl
@[simp] theorem setPending_fc (s : State) (v : List HostAccess) : (s.setPending v).fc = s.fc := rfl
@[simp] theorem setPending_pa (s : State) (v : List HostAccess) : (s.setPending v).pa = s.pa := rfl
@[simp] theorem setPending_pb (s : State) (v : List HostAccess) : (s.setPending v).pb = s.pb := rfl
@[simp] theorem setPending_mask (s : State) (v : List HostAccess) : (s.setPending v).mask = s.mask := rfl
@[simp] theorem setPending_ill (s : State) (v : List HostAccess) : (s.setPending v).ill = s.ill := rfl
@[simp] theorem setPending_rom (s : State) (v : List HostAccess) : (s.setPending v).rom = s.rom := rfl
@[simp] theorem setPending_pending (s : State) (v : List HostAccess) : (s.setPending v).pending = v := rfl
@[simp] theorem setPending_replies (s : State) (v : List HostAccess) : (s.setPending v).replies = s.replies := rfl

@[simp] theorem setReplies_wire (s : State) (v : List Byte) : (s.setReplies v).wire = s.wire := rfl
@[simp] theorem setReplies_param (s : State) (v : List Byte) : (s.setReplies v).param = s.param := rfl
@[simp] theorem setReplies_fa (s : State) (v : List Byte) : (s.setReplies v).fa = s.fa := rfl
@[simp] theorem setReplies_fb (s : State) (v : List Byte) : (s.setReplies v).fb = s.fb := rfl
@[simp] theorem setReplies_fc (s : State) (v : List Byte) : (s.setReplies v).fc = s.fc := rfl
@[simp] theorem setReplies_pa (s : State) (v : List Byte) : (s.setReplies v).pa = s.pa := rfl
@[simp] theorem setReplies_pb (s : State) (v : List Byte) : (s.setReplies v).pb = s.pb := rfl
@[simp] theorem setReplies_mask (s : State) (v : List Byte) : (s.setReplies v).mask = s.mask := rfl
@[simp] theorem setReplies_ill (s : State) (v : List Byte) : (s.setReplies v).ill = s.ill := rfl
@[simp] theorem setReplies_rom (s : State) (v : List Byte) : (s.setReplies v).rom = s.rom := rfl
@[simp] theorem setReplies_pending (s : State) (v : List Byte) : (s.setReplies v).pending = s.pending := rfl
@[simp] theorem setReplies_replies (s : State) (v : List Byte) : (s.setReplies v).replies = v := rfl

@[simp] theorem withRom_wire (r : Rom) : (withRom r).wire = Vector.replicate 9 0#8 := rfl
@[simp] theorem withRom_param (r : Rom) : (withRom r).param = Vector.replicate 7 0#8 := rfl
@[simp] theorem withRom_fa (r : Rom) : (withRom r).fa = 0#24 := rfl
@[simp] theorem withRom_fb (r : Rom) : (withRom r).fb = 0#23 := rfl
@[simp] theorem withRom_fc (r : Rom) : (withRom r).fc = 0#25 := rfl
@[simp] theorem withRom_pa (r : Rom) : (withRom r).pa = 0#12 := rfl
@[simp] theorem withRom_pb (r : Rom) : (withRom r).pb = 0#12 := rfl
@[simp] theorem withRom_mask (r : Rom) : (withRom r).mask = 0#23 := rfl
@[simp] theorem withRom_ill (r : Rom) : (withRom r).ill = false := rfl
@[simp] theorem withRom_rom (r : Rom) : (withRom r).rom = r := rfl
@[simp] theorem withRom_pending (r : Rom) : (withRom r).pending = [] := rfl
@[simp] theorem withRom_replies (r : Rom) : (withRom r).replies = [] := rfl

@[simp] theorem resetInput_wire (s : State) : (resetInput s).wire = Vector.replicate 9 0#8 := rfl
@[simp] theorem resetInput_param (s : State) : (resetInput s).param = Vector.replicate 7 0#8 := rfl
@[simp] theorem resetInput_fa (s : State) : (resetInput s).fa = 0#24 := rfl
@[simp] theorem resetInput_fb (s : State) : (resetInput s).fb = 0#23 := rfl
@[simp] theorem resetInput_fc (s : State) : (resetInput s).fc = 0#25 := rfl
@[simp] theorem resetInput_pa (s : State) : (resetInput s).pa = 0#12 := rfl
@[simp] theorem resetInput_pb (s : State) : (resetInput s).pb = 0#12 := rfl
@[simp] theorem resetInput_mask (s : State) : (resetInput s).mask = 0#23 := rfl
@[simp] theorem resetInput_ill (s : State) : (resetInput s).ill = false := rfl
@[simp] theorem resetInput_rom (s : State) : (resetInput s).rom = s.rom := rfl
@[simp] theorem resetInput_pending (s : State) : (resetInput s).pending = s.pending := rfl
@[simp] theorem resetInput_replies (s : State) : (resetInput s).replies = s.replies := rfl

end Sys2Proof.Machine.State
end

