-- ==== Sys2Proof/Laws/Exec.lean ====
section
/-! SUPPORT. What `exec` answers: one equation per command, the register values of the composites, and the frame that
every command keeps. -/

namespace Sys2Proof.Machine

theorem exec_nop (s : State) : exec .nop s = .next (s.setIll false) := rfl
theorem exec_decode (s : State) : exec .decode s = .next ((decodeFrame s).setIll false) := rfl
theorem exec_encode (s : State) : exec .encode s = .next ((encodeFrame s).setIll false) := rfl
theorem exec_gatherA (s : State) : exec .gatherA s = .next ((s.setFA (gather s.rom.permA s)).setIll false) := rfl
theorem exec_gatherB (s : State) : exec .gatherB s = .next ((s.setFB (gather s.rom.permB s)).setIll false) := rfl
theorem exec_gatherC (s : State) : exec .gatherC s = .next ((s.setFC (gather s.rom.permC s)).setIll false) := rfl
theorem exec_scatterA (s : State) : exec .scatterA s = .next ((scatter s.fa s.rom.permA s).setIll false) := rfl
theorem exec_scatterB (s : State) : exec .scatterB s = .next ((scatter s.fb s.rom.permB s).setIll false) := rfl
theorem exec_scatterC (s : State) : exec .scatterC s = .next ((scatter s.fc s.rom.permC s).setIll false) := rfl
theorem exec_extractA (s : State) : exec .extractA s = .next ((s.setPA (s.fa.extractLsb' 12 12)).setIll false) := rfl
theorem exec_extractB (s : State) : exec .extractB s = .next ((s.setPB (s.fb.extractLsb' 11 12)).setIll false) := rfl
theorem exec_golay24Enc (s : State) : exec .golay24Enc s = .next ((s.setFA (romAt s.rom.golay24 s.pa)).setIll false) := rfl
theorem exec_golay23Enc (s : State) : exec .golay23Enc s = .next ((s.setFB (top23 (romAt s.rom.golay23 s.pb))).setIll false) := rfl
theorem exec_prngMask (s : State) : exec .prngMask s = .next ((s.setMask (top23 (romAt s.rom.prng s.pa))).setIll false) := rfl
theorem exec_scrambleB (s : State) : exec .scrambleB s = .next ((s.setFB (s.fb ^^^ s.mask)).setIll false) := rfl
theorem exec_unpackParam (s : State) : exec .unpackParam s = .next ((unpackFields s).setIll false) := rfl
theorem exec_packParam (s : State) : exec .packParam s = .next ((packFields s).setIll false) := rfl

@[simp] theorem wire_scatter {n : Nat} (v : BitVec n) (T : Vector WirePos n) (s : State) :
    (scatter v T s).wire = scatterBits v (fun i => (T[i]).val) s.wire := rfl
@[simp] theorem param_scatter {n : Nat} (v : BitVec n) (T : Vector WirePos n) (s : State) :
    (scatter v T s).param = s.param := rfl
@[simp] theorem fa_scatter {n : Nat} (v : BitVec n) (T : Vector WirePos n) (s : State) :
    (scatter v T s).fa = s.fa := rfl
@[simp] theorem fb_scatter {n : Nat} (v : BitVec n) (T : Vector WirePos n) (s : State) :
    (scatter v T s).fb = s.fb := rfl
@[simp] theorem fc_scatter {n : Nat} (v : BitVec n) (T : Vector WirePos n) (s : State) :
    (scatter v T s).fc = s.fc := rfl
@[simp] theorem pa_scatter {n : Nat} (v : BitVec n) (T : Vector WirePos n) (s : State) :
    (scatter v T s).pa = s.pa := rfl
@[simp] theorem pb_scatter {n : Nat} (v : BitVec n) (T : Vector WirePos n) (s : State) :
    (scatter v T s).pb = s.pb := rfl
@[simp] theorem mask_scatter {n : Nat} (v : BitVec n) (T : Vector WirePos n) (s : State) :
    (scatter v T s).mask = s.mask := rfl
@[simp] theorem ill_scatter {n : Nat} (v : BitVec n) (T : Vector WirePos n) (s : State) :
    (scatter v T s).ill = s.ill := rfl
@[simp] theorem rom_scatter {n : Nat} (v : BitVec n) (T : Vector WirePos n) (s : State) :
    (scatter v T s).rom = s.rom := rfl
@[simp] theorem pending_scatter {n : Nat} (v : BitVec n) (T : Vector WirePos n) (s : State) :
    (scatter v T s).pending = s.pending := rfl
@[simp] theorem replies_scatter {n : Nat} (v : BitVec n) (T : Vector WirePos n) (s : State) :
    (scatter v T s).replies = s.replies := rfl

/-- `gather` reads WIRE alone (R100). -/
theorem gather_congr {n : Nat} (T : Vector WirePos n) {s t : State} (h : s.wire = t.wire) : gather T s = gather T t := by
  simp [gather, h]

theorem getMsbD_gather {n : Nat} (T : Vector WirePos n) (s : State) (i : Fin n) :
    (gather T s).getMsbD i.val = readBit s.wire (T[i]).val := getMsbD_gatherBits _ _ _

theorem getMsbD_paramField (start n : Nat) (buf : ParamFrame) (i : Fin n) :
    (paramField start n buf).getMsbD i.val = readBit buf (start + i.val) := getMsbD_gatherBits _ _ _

/-- A field written to PARAM, read at any position (R170, R172). -/
theorem readBit_putParamField {n : Nat} (start : Nat) (v : BitVec n) (buf : ParamFrame) (q : Nat)
    (h : start + n ≤ 56) :
    readBit (putParamField start v buf) q =
      if start ≤ q ∧ q < start + n then v.getMsbD (q - start) else readBit buf q := by
  split
  · rename_i hq
    have := readBit_scatterBits v (fun i : Fin n => start + i.val) buf ⟨q - start, by omega⟩ (by dsimp only; omega)
      fun i j e => Fin.ext (by dsimp only at e; omega)
    have e : start + (q - start) = q := by omega
    unfold putParamField
    simpa only [e] using this
  · rename_i hq
    exact readBit_scatterBits_of_forall_ne _ _ _ _ fun i => by omega

/-! What DECODE leaves in each register (R174): the later registers in terms of the earlier ones. -/

theorem decodeFrame_fa (s : State) : (decodeFrame s).fa = gather s.rom.permA s := by
  simp [decodeFrame, gatherFieldA, extractPayloadA, gatherFieldB, formMask, scrambleFieldB, extractPayloadB, gatherFieldC,
    packFields, gather]
theorem decodeFrame_pa (s : State) : (decodeFrame s).pa = (decodeFrame s).fa.extractLsb' 12 12 := by
  simp [decodeFrame, gatherFieldA, extractPayloadA, gatherFieldB, formMask, scrambleFieldB, extractPayloadB, gatherFieldC,
    packFields, gather]
theorem decodeFrame_mask (s : State) : (decodeFrame s).mask = top23 (romAt s.rom.prng (decodeFrame s).pa) := by
  simp [decodeFrame, gatherFieldA, extractPayloadA, gatherFieldB, formMask, scrambleFieldB, extractPayloadB, gatherFieldC,
    packFields, gather]
theorem decodeFrame_fb (s : State) : (decodeFrame s).fb = gather s.rom.permB s ^^^ (decodeFrame s).mask := by
  simp [decodeFrame, gatherFieldA, extractPayloadA, gatherFieldB, formMask, scrambleFieldB, extractPayloadB, gatherFieldC,
    packFields, gather]
theorem decodeFrame_pb (s : State) : (decodeFrame s).pb = (decodeFrame s).fb.extractLsb' 11 12 := by
  simp [decodeFrame, gatherFieldA, extractPayloadA, gatherFieldB, formMask, scrambleFieldB, extractPayloadB, gatherFieldC,
    packFields, gather]
theorem decodeFrame_fc (s : State) : (decodeFrame s).fc = gather s.rom.permC s := by
  simp [decodeFrame, gatherFieldA, extractPayloadA, gatherFieldB, formMask, scrambleFieldB, extractPayloadB, gatherFieldC,
    packFields, gather]
theorem decodeFrame_param (s : State) :
    (decodeFrame s).param = putParamField 24 (decodeFrame s).fc
      (putParamField 12 (decodeFrame s).pb (putParamField 0 (decodeFrame s).pa s.param)) := by
  simp [decodeFrame, gatherFieldA, extractPayloadA, gatherFieldB, formMask, scrambleFieldB, extractPayloadB, gatherFieldC,
    packFields, gather]
theorem decodeFrame_wire (s : State) : (decodeFrame s).wire = s.wire := by
  simp [decodeFrame, gatherFieldA, extractPayloadA, gatherFieldB, formMask, scrambleFieldB, extractPayloadB, gatherFieldC,
    packFields, gather]
theorem decodeFrame_ill (s : State) : (decodeFrame s).ill = s.ill := by
  simp [decodeFrame, gatherFieldA, extractPayloadA, gatherFieldB, formMask, scrambleFieldB, extractPayloadB, gatherFieldC,
    packFields, gather]
theorem decodeFrame_rom (s : State) : (decodeFrame s).rom = s.rom := by
  simp [decodeFrame, gatherFieldA, extractPayloadA, gatherFieldB, formMask, scrambleFieldB, extractPayloadB, gatherFieldC,
    packFields, gather]
theorem decodeFrame_pending (s : State) : (decodeFrame s).pending = s.pending := by
  simp [decodeFrame, gatherFieldA, extractPayloadA, gatherFieldB, formMask, scrambleFieldB, extractPayloadB, gatherFieldC,
    packFields, gather]
theorem decodeFrame_replies (s : State) : (decodeFrame s).replies = s.replies := by
  simp [decodeFrame, gatherFieldA, extractPayloadA, gatherFieldB, formMask, scrambleFieldB, extractPayloadB, gatherFieldC,
    packFields, gather]

/-! What ENCODE leaves in each register (R176). -/

theorem encodeFrame_pa (s : State) : (encodeFrame s).pa = paramField 0 12 s.param := by
  simp [encodeFrame, unpackFields, encodeGolay24, formMask, encodeGolay23, scrambleFieldB, scatterFieldA, scatterFieldB,
    scatterFieldC]
theorem encodeFrame_pb (s : State) : (encodeFrame s).pb = paramField 12 12 s.param := by
  simp [encodeFrame, unpackFields, encodeGolay24, formMask, encodeGolay23, scrambleFieldB, scatterFieldA, scatterFieldB,
    scatterFieldC]
theorem encodeFrame_fc (s : State) : (encodeFrame s).fc = paramField 24 25 s.param := by
  simp [encodeFrame, unpackFields, encodeGolay24, formMask, encodeGolay23, scrambleFieldB, scatterFieldA, scatterFieldB,
    scatterFieldC]
theorem encodeFrame_fa (s : State) : (encodeFrame s).fa = romAt s.rom.golay24 (encodeFrame s).pa := by
  simp [encodeFrame, unpackFields, encodeGolay24, formMask, encodeGolay23, scrambleFieldB, scatterFieldA, scatterFieldB,
    scatterFieldC]
theorem encodeFrame_mask (s : State) : (encodeFrame s).mask = top23 (romAt s.rom.prng (encodeFrame s).pa) := by
  simp [encodeFrame, unpackFields, encodeGolay24, formMask, encodeGolay23, scrambleFieldB, scatterFieldA, scatterFieldB,
    scatterFieldC]
theorem encodeFrame_fb (s : State) :
    (encodeFrame s).fb = top23 (romAt s.rom.golay23 (encodeFrame s).pb) ^^^ (encodeFrame s).mask := by
  simp [encodeFrame, unpackFields, encodeGolay24, formMask, encodeGolay23, scrambleFieldB, scatterFieldA, scatterFieldB,
    scatterFieldC]
theorem encodeFrame_wire (s : State) :
    (encodeFrame s).wire = scatterBits (encodeFrame s).fc (fun i => (s.rom.permC[i]).val)
      (scatterBits (encodeFrame s).fb (fun i => (s.rom.permB[i]).val)
        (scatterBits (encodeFrame s).fa (fun i => (s.rom.permA[i]).val) s.wire)) := by
  simp [encodeFrame, unpackFields, encodeGolay24, formMask, encodeGolay23, scrambleFieldB, scatterFieldA, scatterFieldB,
    scatterFieldC]
theorem encodeFrame_param (s : State) : (encodeFrame s).param = s.param := by
  simp [encodeFrame, unpackFields, encodeGolay24, formMask, encodeGolay23, scrambleFieldB, scatterFieldA, scatterFieldB,
    scatterFieldC]
theorem encodeFrame_ill (s : State) : (encodeFrame s).ill = s.ill := by
  simp [encodeFrame, unpackFields, encodeGolay24, formMask, encodeGolay23, scrambleFieldB, scatterFieldA, scatterFieldB,
    scatterFieldC]
theorem encodeFrame_rom (s : State) : (encodeFrame s).rom = s.rom := by
  simp [encodeFrame, unpackFields, encodeGolay24, formMask, encodeGolay23, scrambleFieldB, scatterFieldA, scatterFieldB,
    scatterFieldC]
theorem encodeFrame_pending (s : State) : (encodeFrame s).pending = s.pending := by
  simp [encodeFrame, unpackFields, encodeGolay24, formMask, encodeGolay23, scrambleFieldB, scatterFieldA, scatterFieldB,
    scatterFieldC]
theorem encodeFrame_replies (s : State) : (encodeFrame s).replies = s.replies := by
  simp [encodeFrame, unpackFields, encodeGolay24, formMask, encodeGolay23, scrambleFieldB, scatterFieldA, scatterFieldB,
    scatterFieldC]

/-- Every command answers a next state, and leaves the ROMs and the host's side alone (R29, R212). -/
theorem exec_next (i : Instr) (s : State) :
    ∃ t, exec i s = .next t ∧ t.ill = false ∧ t.rom = s.rom ∧ t.pending = s.pending ∧ t.replies = s.replies := by
  cases i
  case decode =>
    exact ⟨_, rfl, rfl, by simp [decodeFrame_rom], by simp [decodeFrame_pending], by simp [decodeFrame_replies]⟩
  case encode =>
    exact ⟨_, rfl, rfl, by simp [encodeFrame_rom], by simp [encodeFrame_pending], by simp [encodeFrame_replies]⟩
  case unpackParam => exact ⟨_, rfl, by simp [unpackFields]⟩
  case packParam => exact ⟨_, rfl, by simp [packFields]⟩
  case scatterA => exact ⟨_, rfl, by simp [scatterFieldA]⟩
  case scatterB => exact ⟨_, rfl, by simp [scatterFieldB]⟩
  case scatterC => exact ⟨_, rfl, by simp [scatterFieldC]⟩
  all_goals exact ⟨_, rfl, rfl, rfl, rfl, rfl⟩

/-- The same, read backwards: what a command's next state keeps. -/
theorem exec_keeps {i : Instr} {s t : State} (h : exec i s = .next t) :
    t.ill = false ∧ t.rom = s.rom ∧ t.pending = s.pending ∧ t.replies = s.replies := by
  obtain ⟨t', h', keeps⟩ := exec_next i s
  rw [h] at h'
  cases h'
  exact keeps

end Sys2Proof.Machine
end

