-- ==== Sys2Proof/Machine/Candidates.lean ====
section
/-! DEFINITION. The candidate ROM contents of 93_implementation_defined.md GK1 to GK4. They are general knowledge and
not normative (log 12): the machine never uses them. They serve the examples the spec marks (GK), and show that a
well-formed ROM exists. -/

namespace Sys2Proof.Machine

/-- GK1. PRESUMED. -/
def candidatePermA : Vector WirePos 24 :=
  #v[0, 4, 8, 12, 16, 20, 24, 28, 32, 36, 40, 44, 48, 52, 56, 60, 64, 68, 1, 5, 9, 13, 17, 21]

/-- GK1. PRESUMED. -/
def candidatePermB : Vector WirePos 23 :=
  #v[25, 29, 33, 37, 41, 45, 49, 53, 57, 61, 65, 69, 2, 6, 10, 14, 18, 22, 26, 30, 34, 38, 42]

/-- GK1. PRESUMED. -/
def candidatePermC : Vector WirePos 25 :=
  #v[46, 50, 54, 58, 62, 66, 70, 3, 7, 11, 15, 19, 23, 27, 31, 35, 39, 43, 47, 51, 55, 59, 63, 67, 71]

/-- The remainder over GF(2) of a 23-bit polynomial by `g = 0xC75`, in the low 11 bits (GK2). -/
def golayRemainder (x : BitVec 23) : BitVec 23 :=
  (List.range 12).reverse.foldl (fun r k => if r.getLsbD (11 + k) then r ^^^ (0xC75#23 <<< k) else r) x

/-- `c23(v)` of GK2. PRESUMED. -/
def candidateC23 (v : Payload) : BitVec 23 :=
  v ++ (golayRemainder (v.setWidth 23 <<< 11)).setWidth 11

/-- The exclusive or of all 23 bits (GK3). -/
def parity23 (x : BitVec 23) : Bool := (List.range 23).foldl (fun b i => b ^^ x.getLsbD i) false

/-- GK2. PRESUMED. -/
def candidateGolay23 (v : Payload) : RomWord := candidateC23 v ++ 0#1

/-- GK3. PRESUMED. -/
def candidateGolay24 (v : Payload) : RomWord := candidateC23 v ++ BitVec.ofBool (parity23 (candidateC23 v))

/-- The steps of GK4: the top bit of each new value of `pr` is shifted into `w`. -/
def prngSteps : Nat → BitVec 16 → RomWord → RomWord
  | 0, _, w => w
  | k + 1, pr, w =>
    let pr := 173#16 * pr + 13849#16
    prngSteps k pr ((w <<< 1) ||| (BitVec.ofBool pr.msb).setWidth 24)

/-- GK4. PRESUMED. -/
def candidatePrng (v : Payload) : RomWord := prngSteps 24 (16#16 * v.setWidth 16) 0#24

/-- The candidate ROM image (GK1 to GK4). -/
def candidateRom : Rom where
  permA := candidatePermA
  permB := candidatePermB
  permC := candidatePermC
  golay24 := tabulate fun i => candidateGolay24 (BitVec.ofFin i)
  golay23 := tabulate fun i => candidateGolay23 (BitVec.ofFin i)
  prng := tabulate fun i => candidatePrng (BitVec.ofFin i)

end Sys2Proof.Machine
end

