-- ==== Sys2Proof/Laws/RomFacts.lean ====
section
/-! SUPPORT. What a well-formed ROM image gives (10_state.md R31 to R33), that every image Config can build is well
formed, and that the candidate image is. -/

namespace Sys2Proof

theorem getElem_romOf_permA (o p q r) (i : Nat) (h : i < 24) :
    (Config.romOf o p q r).permA[i] = o ⟨i, by omega⟩ := getElem_tabulate _ _ _
theorem getElem_romOf_permB (o p q r) (i : Nat) (h : i < 23) :
    (Config.romOf o p q r).permB[i] = o ⟨24 + i, by omega⟩ := getElem_tabulate _ _ _
theorem getElem_romOf_permC (o p q r) (i : Nat) (h : i < 25) :
    (Config.romOf o p q r).permC[i] = o ⟨47 + i, by omega⟩ := getElem_tabulate _ _ _

theorem Rom.length_positions (r : Rom) : r.positions.length = 72 := by simp [Rom.positions]

theorem systematic_tabulate (parity : Payload → BitVec 12) :
    RomTable.Systematic (tabulate fun i => (BitVec.ofFin i : Payload) ++ parity (BitVec.ofFin i)) := by
  intro v
  rw [Fin.getElem_fin, getElem_tabulate]
  refine BitVec.eq_of_getLsbD_eq fun j hj => ?_
  rw [BitVec.getLsbD_extractLsb', BitVec.getLsbD_append]
  simp [hj]

theorem positions_romOf (o p q r) :
    (Config.romOf o p q r).positions = (List.finRange 72).map o := by
  refine List.ext_getElem (by simp [Rom.positions]) fun k h1 h2 => ?_
  rw [Rom.length_positions] at h1
  simp only [Rom.positions, List.getElem_append, List.length_append, Vector.length_toList, Vector.getElem_toList]
  split
  · split
    · rw [getElem_romOf_permA _ _ _ _ _ (by assumption)]; simp
    · rw [getElem_romOf_permB _ _ _ _ _ (by omega)]; simp; omega
  · rw [getElem_romOf_permC _ _ _ _ _ (by omega)]; simp; omega

theorem romOf_wellFormed (o p q r) : (Config.romOf o p q r).WellFormed := by
  refine ⟨?_, systematic_tabulate p, systematic_tabulate q⟩
  rw [positions_romOf]
  exact (List.nodup_finRange 72).map o.injective

namespace Rom.WellFormed
variable {r : Rom} (h : r.WellFormed)
include h

theorem getElem_positions_inj {i j : Nat} (hi : i < 72) (hj : j < 72)
    (e : r.positions[i]'(by rw [Rom.length_positions]; exact hi) = r.positions[j]'(by rw [Rom.length_positions]; exact hj)) :
    i = j := (h.1.getElem_inj_iff).mp e

end Rom.WellFormed
theorem Rom.getElem_positions_A (r : Rom) (i : Fin 24) :
    r.positions[i.val]'(by rw [r.length_positions]; omega) = r.permA[i] := by
  simp [Rom.positions]
theorem Rom.getElem_positions_B (r : Rom) (i : Fin 23) :
    r.positions[24 + i.val]'(by rw [r.length_positions]; omega) = r.permB[i] := by
  simp [Rom.positions]
theorem Rom.getElem_positions_C (r : Rom) (i : Fin 25) :
    r.positions[47 + i.val]'(by rw [r.length_positions]; omega) = r.permC[i] := by
  simp only [Rom.positions, List.getElem_append, List.length_append, Vector.length_toList, Vector.getElem_toList]
  have h1 : ¬ 47 + i.val < 24 + 23 := by omega
  have h2 : 47 + i.val - (24 + 23) = i.val := by omega
  simp only [h1, dite_false, h2]
  rfl

namespace Rom.WellFormed
variable {r : Rom} (h : r.WellFormed)
include h

theorem permA_injective : Function.Injective fun i : Fin 24 => (r.permA[i]).val := fun i j e => by
  have := h.getElem_positions_inj (i := i.val) (j := j.val) (by omega) (by omega)
    (by rw [r.getElem_positions_A i, r.getElem_positions_A j]; exact Fin.ext e)
  exact Fin.ext this
theorem permB_injective : Function.Injective fun i : Fin 23 => (r.permB[i]).val := fun i j e => by
  have := h.getElem_positions_inj (i := 24 + i.val) (j := 24 + j.val) (by omega) (by omega)
    (by rw [r.getElem_positions_B i, r.getElem_positions_B j]; exact Fin.ext e)
  exact Fin.ext (by omega)
theorem permC_injective : Function.Injective fun i : Fin 25 => (r.permC[i]).val := fun i j e => by
  have := h.getElem_positions_inj (i := 47 + i.val) (j := 47 + j.val) (by omega) (by omega)
    (by rw [r.getElem_positions_C i, r.getElem_positions_C j]; exact Fin.ext e)
  exact Fin.ext (by omega)

theorem permA_ne_permB (i : Fin 24) (j : Fin 23) : (r.permA[i]).val ≠ (r.permB[j]).val := fun e => by
  have := h.getElem_positions_inj (i := i.val) (j := 24 + j.val) (by omega) (by omega)
    (by rw [r.getElem_positions_A i, r.getElem_positions_B j]; exact Fin.ext e)
  omega
theorem permA_ne_permC (i : Fin 24) (j : Fin 25) : (r.permA[i]).val ≠ (r.permC[j]).val := fun e => by
  have := h.getElem_positions_inj (i := i.val) (j := 47 + j.val) (by omega) (by omega)
    (by rw [r.getElem_positions_A i, r.getElem_positions_C j]; exact Fin.ext e)
  omega
theorem permB_ne_permC (i : Fin 23) (j : Fin 25) : (r.permB[i]).val ≠ (r.permC[j]).val := fun e => by
  have := h.getElem_positions_inj (i := 24 + i.val) (j := 47 + j.val) (by omega) (by omega)
    (by rw [r.getElem_positions_B i, r.getElem_positions_C j]; exact Fin.ext e)
  omega

theorem covers (p : WirePos) : (∃ i : Fin 24, r.permA[i] = p) ∨ (∃ i : Fin 23, r.permB[i] = p) ∨ ∃ i : Fin 25, r.permC[i] = p := by
  have hmem : p ∈ r.positions := by
    have hcard : r.positions.toFinset.card = Fintype.card WirePos := by
      rw [List.toFinset_card_of_nodup h.1, r.length_positions]; rfl
    have := Finset.eq_univ_of_card _ hcard
    exact List.mem_toFinset.mp (this ▸ Finset.mem_univ p)
  simp only [Rom.positions, List.mem_append, Vector.mem_toList_iff, Vector.mem_iff_getElem] at hmem
  rcases hmem with (⟨i, hi, e⟩ | ⟨i, hi, e⟩) | ⟨i, hi, e⟩
  · exact .inl ⟨⟨i, hi⟩, e⟩
  · exact .inr (.inl ⟨⟨i, hi⟩, e⟩)
  · exact .inr (.inr ⟨⟨i, hi⟩, e⟩)
end Rom.WellFormed

/-- The high 12 bits of an entry of a systematic table are its index. -/
theorem romAt_systematic {t : RomTable} (h : RomTable.Systematic t) (v : Payload) :
    (Machine.romAt t v).extractLsb' 12 12 = v := by
  have hv : v.toNat < 4096 := v.isLt
  have := h ⟨v.toNat, hv⟩
  simpa [Machine.romAt] using this

theorem romAt_tabulate (f : Fin 4096 → RomWord) (v : Payload) :
    Machine.romAt (tabulate f) v = f ⟨v.toNat, v.isLt⟩ := getElem_tabulate _ _ _

theorem Config.rom_wellFormed : Config.rom.WellFormed := romOf_wellFormed _ _ _ _

theorem getLsbD_candidateC23 (v : Payload) (j : Nat) :
    (Machine.candidateC23 v).getLsbD (11 + j) = v.getLsbD j := by
  refine (BitVec.getLsbD_append (x := v) (i := 11 + j)).trans ?_
  simp

theorem systematic_candidate (bit : Payload → BitVec 1) :
    RomTable.Systematic (tabulate fun i => Machine.candidateC23 (BitVec.ofFin i) ++ bit (BitVec.ofFin i)) := by
  intro v
  rw [Fin.getElem_fin, getElem_tabulate]
  refine BitVec.eq_of_getLsbD_eq fun j hj => ?_
  have h1 : ¬ 12 + j < 1 := by omega
  have h2 : 12 + j - 1 = 11 + j := by omega
  rw [BitVec.getLsbD_extractLsb', BitVec.getLsbD_append]
  simp [hj, h1, h2, getLsbD_candidateC23]

/-- GK1 to GK3 meet R30 to R33, as 93_implementation_defined.md says. -/
theorem candidateRom_wellFormed : Machine.candidateRom.WellFormed := by
  refine ⟨by decide +kernel, ?_, ?_⟩
  · exact systematic_candidate fun v => BitVec.ofBool (Machine.parity23 (Machine.candidateC23 v))
  · exact systematic_candidate fun _ => 0#1

end Sys2Proof
end

