-- ==== Sys2Proof/Laws/Fields.lean ====
section
/-! SUPPORT. The commands bit by bit: lookups, gathered fields, PARAM after PACK_PARAM and DECODE, WIRE after ENCODE over
a well-formed ROM image, and what each composite depends on. -/

namespace Sys2Proof.Machine

/-- Two states with the same fields are one state. -/
theorem State.eq_of_fields {s t : State} (wire : s.wire = t.wire) (param : s.param = t.param) (fa : s.fa = t.fa)
    (fb : s.fb = t.fb) (fc : s.fc = t.fc) (pa : s.pa = t.pa) (pb : s.pb = t.pb) (mask : s.mask = t.mask)
    (ill : s.ill = t.ill) (rom : s.rom = t.rom) (pending : s.pending = t.pending) (replies : s.replies = t.replies) :
    s = t := by
  cases s; cases t; simp_all

/-- Logical bit `i` of a field, MSB-first, is integer bit `n-1-i` (R30). -/
theorem getLsbD_logical {n : Nat} (x : BitVec n) (i : Fin n) : x.getLsbD (n - 1 - i.val) = x.getMsbD i.val := by
  rw [BitVec.getMsbD_eq_getLsbD]; simp

/-- A lookup is the entry whose index is the payload (R66). -/
theorem romAt_eq (t : RomTable) (x : Payload) (v : Fin 4096) (h : v.val = x.toNat) : romAt t x = t[v] := by
  unfold romAt; simp [← h]

/-- Taking the top 23 bits drops bit 0 (R32). -/
theorem toNat_top23 (w : RomWord) : (top23 w).toNat = w.toNat / 2 := by
  have := w.isLt
  simp only [top23, BitVec.extractLsb'_toNat, Nat.shiftRight_one]
  omega

theorem getLsbD_top23 (w : RomWord) (j : Nat) (h : j < 23) : (top23 w).getLsbD j = w.getLsbD (1 + j) := by
  simp [top23, h]

theorem getLsbD_gather {n : Nat} (T : Vector WirePos n) (s : State) (i : Fin n) :
    (gather T s).getLsbD (n - 1 - i.val) = readBit s.wire (T[i]).val := getLsbD_gatherBits _ _ _

/-- A WIRE of zeros gathers to zero. -/
theorem gather_zero {n : Nat} (T : Vector WirePos n) (s : State) (h : ∀ p < 72, readBit s.wire p = false) :
    gather T s = 0#n := by
  refine BitVec.eq_of_getMsbD_eq fun i hi => ?_
  rw [getMsbD_gather T s ⟨i, hi⟩, h _ (T[(⟨i, hi⟩ : Fin n)]).isLt]; simp

/-- A WIRE of ones gathers to ones. -/
theorem gather_ones {n : Nat} (T : Vector WirePos n) (s : State) (h : ∀ p < 72, readBit s.wire p = true) :
    gather T s = BitVec.allOnes n := by
  refine BitVec.eq_of_getMsbD_eq fun i hi => ?_
  rw [getMsbD_gather T s ⟨i, hi⟩, h _ (T[(⟨i, hi⟩ : Fin n)]).isLt]; simp [hi]

/-- A scatter leaves every position its table does not name (R101). -/
theorem readBit_scatter_of_forall_ne {n : Nat} (v : BitVec n) (T : Vector WirePos n) (s : State) (q : WirePos)
    (h : ∀ i : Fin n, T[i] ≠ q) : readBit (scatter v T s).wire q.val = readBit s.wire q.val :=
  readBit_scatterBits_of_forall_ne _ _ _ _ fun i e => h i (Fin.ext e)

/-- At a position no later entry repeats, a scatter leaves its own bit (R101). -/
theorem readBit_scatter_last {n : Nat} (v : BitVec n) (T : Vector WirePos n) (s : State) (i : Fin n)
    (h : ∀ j : Fin n, i < j → T[j] ≠ T[i]) : readBit (scatter v T s).wire (T[i]).val = v.getLsbD (n - 1 - i.val) := by
  rw [getLsbD_logical]
  exact readBit_scatterBits_last v (fun i => (T[i]).val) _ i (T[i]).isLt fun j hj e => h j hj (Fin.ext e)

theorem getLsbD_paramField (start n : Nat) (buf : ParamFrame) (i : Fin n) :
    (paramField start n buf).getLsbD (n - 1 - i.val) = readBit buf (start + i.val) := by
  rw [getLsbD_logical, getMsbD_paramField]

theorem paramField_congr (start n : Nat) {a b : ParamFrame}
    (h : ∀ q, start ≤ q → q < start + n → readBit a q = readBit b q) : paramField start n a = paramField start n b :=
  gatherBits_congr _ fun i => h _ (by omega) (by omega)

/-- PARAM after PACK_PARAM, at any position (R170, R172). -/
theorem readBit_packFields (s : State) (q : Nat) :
    readBit (packFields s).param q =
      if 24 ≤ q ∧ q < 49 then s.fc.getMsbD (q - 24)
      else if 12 ≤ q ∧ q < 24 then s.pb.getMsbD (q - 12)
      else if q < 12 then s.pa.getMsbD q
      else readBit s.param q := by
  unfold packFields
  rw [State.setParam_param, readBit_putParamField _ _ _ _ (by omega), readBit_putParamField _ _ _ _ (by omega),
    readBit_putParamField _ _ _ _ (by omega)]
  simp

/-- PARAM after DECODE, at any position (R170, R174). -/
theorem readBit_decodeFrame_param (s : State) (q : Nat) :
    readBit (decodeFrame s).param q =
      if 24 ≤ q ∧ q < 49 then (decodeFrame s).fc.getMsbD (q - 24)
      else if 12 ≤ q ∧ q < 24 then (decodeFrame s).pb.getMsbD (q - 12)
      else if q < 12 then (decodeFrame s).pa.getMsbD q
      else readBit s.param q := by
  rw [decodeFrame_param, readBit_putParamField _ _ _ _ (by omega), readBit_putParamField _ _ _ _ (by omega),
    readBit_putParamField _ _ _ _ (by omega)]
  simp

/-- What DECODE computes depends on WIRE and the ROMs alone (R174). -/
theorem decodeFrame_congr {s t : State} (rom : t.rom = s.rom) (wire : t.wire = s.wire) :
    (decodeFrame t).fa = (decodeFrame s).fa ∧ (decodeFrame t).pa = (decodeFrame s).pa ∧
      (decodeFrame t).mask = (decodeFrame s).mask ∧ (decodeFrame t).fb = (decodeFrame s).fb ∧
      (decodeFrame t).pb = (decodeFrame s).pb ∧ (decodeFrame t).fc = (decodeFrame s).fc := by
  have hfa : (decodeFrame t).fa = (decodeFrame s).fa := by
    rw [decodeFrame_fa, decodeFrame_fa, rom]; exact gather_congr _ wire
  have hpa : (decodeFrame t).pa = (decodeFrame s).pa := by rw [decodeFrame_pa, decodeFrame_pa, hfa]
  have hmask : (decodeFrame t).mask = (decodeFrame s).mask := by rw [decodeFrame_mask, decodeFrame_mask, rom, hpa]
  have hfb : (decodeFrame t).fb = (decodeFrame s).fb := by
    rw [decodeFrame_fb, decodeFrame_fb, rom, hmask, gather_congr _ wire]
  refine ⟨hfa, hpa, hmask, hfb, ?_, ?_⟩
  · rw [decodeFrame_pb, decodeFrame_pb, hfb]
  · rw [decodeFrame_fc, decodeFrame_fc, rom]; exact gather_congr _ wire

/-- WIRE after ENCODE, at the positions of each field, over a well-formed ROM image (R33, R176). -/
theorem readBit_encodeFrame_wire (s : State) (h : s.rom.WellFormed) :
    (∀ i : Fin 24, readBit (encodeFrame s).wire (s.rom.permA[i]).val = (encodeFrame s).fa.getMsbD i.val) ∧
    (∀ i : Fin 23, readBit (encodeFrame s).wire (s.rom.permB[i]).val = (encodeFrame s).fb.getMsbD i.val) ∧
    (∀ i : Fin 25, readBit (encodeFrame s).wire (s.rom.permC[i]).val = (encodeFrame s).fc.getMsbD i.val) := by
  rw [encodeFrame_wire]
  refine ⟨fun i => ?_, fun i => ?_, fun i => ?_⟩
  · rw [readBit_scatterBits_of_forall_ne _ _ _ _ (fun j => (h.permA_ne_permC i j).symm),
      readBit_scatterBits_of_forall_ne _ _ _ _ (fun j => (h.permA_ne_permB i j).symm)]
    exact readBit_scatterBits _ (fun i : Fin 24 => (s.rom.permA[i]).val) _ i (s.rom.permA[i]).isLt h.permA_injective
  · rw [readBit_scatterBits_of_forall_ne _ _ _ _ (fun j => (h.permB_ne_permC i j).symm)]
    exact readBit_scatterBits _ (fun i : Fin 23 => (s.rom.permB[i]).val) _ i (s.rom.permB[i]).isLt h.permB_injective
  · exact readBit_scatterBits _ (fun i : Fin 25 => (s.rom.permC[i]).val) _ i (s.rom.permC[i]).isLt h.permC_injective

/-- Over a well-formed ROM image two frames that agree at the positions of all three fields are one frame (R33). -/
theorem wireFrame_ext {r : Rom} (h : r.WellFormed) {a b : WireFrame}
    (fieldA : ∀ i : Fin 24, readBit a (r.permA[i]).val = readBit b (r.permA[i]).val)
    (fieldB : ∀ i : Fin 23, readBit a (r.permB[i]).val = readBit b (r.permB[i]).val)
    (fieldC : ∀ i : Fin 25, readBit a (r.permC[i]).val = readBit b (r.permC[i]).val) : a = b := by
  refine frame_ext fun p hp => ?_
  rcases h.covers ⟨p, hp⟩ with ⟨i, e⟩ | ⟨i, e⟩ | ⟨i, e⟩
  · have := fieldA i; rwa [e] at this
  · have := fieldB i; rwa [e] at this
  · have := fieldC i; rwa [e] at this

/-- What ENCODE computes depends on PARAM positions 0..48 and the ROMs alone (R176). -/
theorem encodeFrame_congr {s t : State} (rom : t.rom = s.rom)
    (param : ∀ q < 49, readBit t.param q = readBit s.param q) :
    (encodeFrame t).pa = (encodeFrame s).pa ∧ (encodeFrame t).pb = (encodeFrame s).pb ∧
      (encodeFrame t).fc = (encodeFrame s).fc ∧ (encodeFrame t).fa = (encodeFrame s).fa ∧
      (encodeFrame t).mask = (encodeFrame s).mask ∧ (encodeFrame t).fb = (encodeFrame s).fb := by
  have hpa : (encodeFrame t).pa = (encodeFrame s).pa := by
    rw [encodeFrame_pa, encodeFrame_pa]; exact paramField_congr _ _ fun q _ h => param q (by omega)
  have hpb : (encodeFrame t).pb = (encodeFrame s).pb := by
    rw [encodeFrame_pb, encodeFrame_pb]; exact paramField_congr _ _ fun q _ h => param q (by omega)
  have hfc : (encodeFrame t).fc = (encodeFrame s).fc := by
    rw [encodeFrame_fc, encodeFrame_fc]; exact paramField_congr _ _ fun q _ h => param q (by omega)
  have hmask : (encodeFrame t).mask = (encodeFrame s).mask := by rw [encodeFrame_mask, encodeFrame_mask, rom, hpa]
  refine ⟨hpa, hpb, hfc, ?_, hmask, ?_⟩
  · rw [encodeFrame_fa, encodeFrame_fa, rom, hpa]
  · rw [encodeFrame_fb, encodeFrame_fb, rom, hpb, hmask]

/-- Over a well-formed ROM image the WIRE that ENCODE leaves does not depend on the WIRE before it (R109, R176). -/
theorem encodeFrame_wire_congr {s t : State} (h : s.rom.WellFormed) (rom : t.rom = s.rom)
    (param : ∀ q < 49, readBit t.param q = readBit s.param q) : (encodeFrame t).wire = (encodeFrame s).wire := by
  obtain ⟨-, -, hfc, hfa, -, hfb⟩ := encodeFrame_congr rom param
  obtain ⟨a₁, b₁, c₁⟩ := readBit_encodeFrame_wire s h
  obtain ⟨a₂, b₂, c₂⟩ := readBit_encodeFrame_wire t (by rw [rom]; exact h)
  rw [rom] at a₂ b₂ c₂
  exact wireFrame_ext h (fun i => by rw [a₁, a₂, hfa]) (fun i => by rw [b₁, b₂, hfb]) (fun i => by rw [c₁, c₂, hfc])

end Sys2Proof.Machine
end

