-- ==== Sys2Proof/Laws/PerInstr.lean ====
section
/-! SUPPORT. Statements made for each command as syntax: its byte decodes to it (30_encoding.md R82), and it is well
formed (R83). -/

namespace Sys2Proof.Laws.RoundTrip

/-- The command's byte decodes to the command. -/
def Statement (i : Instr) : Prop := i.WellFormed ∧ decode (encode i) = .ok i

theorem nop : Statement .nop := ⟨trivial, rfl⟩
theorem decode : Statement .decode := ⟨trivial, rfl⟩
theorem encode : Statement .encode := ⟨trivial, rfl⟩
theorem gatherA : Statement .gatherA := ⟨trivial, rfl⟩
theorem gatherB : Statement .gatherB := ⟨trivial, rfl⟩
theorem gatherC : Statement .gatherC := ⟨trivial, rfl⟩
theorem scatterA : Statement .scatterA := ⟨trivial, rfl⟩
theorem scatterB : Statement .scatterB := ⟨trivial, rfl⟩
theorem scatterC : Statement .scatterC := ⟨trivial, rfl⟩
theorem extractA : Statement .extractA := ⟨trivial, rfl⟩
theorem extractB : Statement .extractB := ⟨trivial, rfl⟩
theorem golay24Enc : Statement .golay24Enc := ⟨trivial, rfl⟩
theorem golay23Enc : Statement .golay23Enc := ⟨trivial, rfl⟩
theorem prngMask : Statement .prngMask := ⟨trivial, rfl⟩
theorem scrambleB : Statement .scrambleB := ⟨trivial, rfl⟩
theorem unpackParam : Statement .unpackParam := ⟨trivial, rfl⟩
theorem packParam : Statement .packParam := ⟨trivial, rfl⟩

end Sys2Proof.Laws.RoundTrip
end

