-- ==== Sys2Proof/Laws/Window.lean ====
section
/-! SUPPORT. The bytes of a register under a write of one of them, and what a plain window write keeps
(20_memory.md R51, R54). -/

namespace Sys2Proof.Machine

/-- A byte read back is what was written, less the bits above the register's width (R54). -/
theorem getByte_putByte {w : Nat} (x : BitVec w) (k : Nat) (v : Byte) (hw : 8 ≤ w) :
    getByte (putByte x k v) k = v &&& (BitVec.allOnes (w - 8 * k)).setWidth 8 := by
  refine BitVec.eq_of_getLsbD_eq fun j hj => ?_
  rw [getLsbD_getByte, getLsbD_putByte _ _ _ _ hw, BitVec.getLsbD_and, BitVec.getLsbD_setWidth,
    BitVec.getLsbD_allOnes]
  have h1 : 8 * k + j - 8 * k = j := by omega
  by_cases hlt : 8 * k + j < w
  · have h2 : 8 * k ≤ 8 * k + j ∧ 8 * k + j < 8 * k + 8 ∧ 8 * k + j < w := ⟨by omega, by omega, hlt⟩
    have h3 : j < w - 8 * k := by omega
    simp [h1, h2, h3, hj]
  · have h3 : ¬ j < w - 8 * k := by omega
    simp [hlt, h3, BitVec.getLsbD_of_ge x _ (Nat.not_lt.mp hlt)]

/-- The other bytes of the register keep their values (R51). -/
theorem getByte_putByte_ne {w : Nat} (x : BitVec w) {k l : Nat} (v : Byte) (hw : 8 ≤ w) (h : l ≠ k) :
    getByte (putByte x k v) l = getByte x l := by
  refine BitVec.eq_of_getLsbD_eq fun j hj => ?_
  rw [getLsbD_getByte, getLsbD_getByte, getLsbD_putByte _ _ _ _ hw]
  have : ¬ (8 * k ≤ 8 * l + j ∧ 8 * l + j < 8 * k + 8 ∧ 8 * l + j < w) := by omega
  simp [this]

/-- A plain window write leaves STATUS, the ROMs and the host's side alone (R29, R211). -/
theorem writeSlot_keeps (x : Slot) (v : Byte) (s : State) :
    (writeSlot x v s).ill = s.ill ∧ (writeSlot x v s).rom = s.rom ∧
      (writeSlot x v s).pending = s.pending ∧ (writeSlot x v s).replies = s.replies := by
  cases x <;> exact ⟨rfl, rfl, rfl, rfl⟩

/-- CMD is the one offset that names the CMD slot (R51). -/
theorem slotOf_eq_cmd (off : Byte) : slotOf off = .cmd ↔ off = 0x2C#8 := by
  revert off; decide

end Sys2Proof.Machine
end

