-- ==== Sys2Proof/Laws/Step.lean ====
section
/-! SUPPORT. What one host access and one step can do, said once. -/

namespace Sys2Proof.Machine

/-- A host write outside CMD is the plain window write (R51). -/
theorem hostWrite_data {off : Byte} (v : Byte) (s : State) (h : off ≠ 0x2C#8) :
    hostWrite off v s = .next (writeWindow off v s) := by
  have : slotOf off ≠ .cmd := fun e => h ((slotOf_eq_cmd off).mp e)
  unfold hostWrite writeWindow
  split
  · contradiction
  · rfl

/-- A write to CMD issues the command (R80). -/
theorem hostWrite_cmd (v : Byte) (s : State) : hostWrite 0x2C#8 v s = issue v s := rfl

/-- Everything an access that completes can have done: a read, a plain write, a legal command, an illegal command, or
the reset input. -/
theorem hostAccess_cases {a : HostAccess} {s t : State} (h : hostAccess a s = .next t) :
    (∃ off, a = .read off 1 ∧ t = s.setReplies (s.replies ++ [readWindow off s])) ∨
    (∃ off v, a = .write off [v] ∧ off ≠ 0x2C#8 ∧ t = writeWindow off v s) ∨
    (∃ v i, a = .write 0x2C#8 [v] ∧ decode v = .ok i ∧ exec i s = .next t) ∨
    (∃ v, a = .write 0x2C#8 [v] ∧ decode v = .error (.illegalCommand v) ∧ t = s.setIll true) ∨
    (a = .reset ∧ t = resetInput s) := by
  unfold hostAccess at h
  split at h
  · cases h; exact .inl ⟨_, rfl, rfl⟩
  · cases h
  · rename_i off v
    by_cases hc : off = 0x2C#8
    · subst hc
      rw [hostWrite_cmd, issue] at h
      split at h
      · exact .inr (.inr (.inl ⟨_, _, rfl, ‹_›, h⟩))
      · rename_i w hw
        have hwv : w = v := by
          revert hw
          unfold decode
          split <;> intro hw <;> cases hw
          rfl
        subst hwv
        cases h
        exact .inr (.inr (.inr (.inl ⟨_, rfl, hw, rfl⟩)))
    · rw [hostWrite_data v s hc] at h
      cases h
      exact .inr (.inl ⟨_, _, rfl, hc, rfl⟩)
  · cases h
  · cases h; exact .inr (.inr (.inr (.inr ⟨rfl, rfl⟩)))

/-- Every access the interface has completes, and keeps the ROMs and the accesses still to come (R29, R214). -/
theorem hostAccess_completes {a : HostAccess} (s : State) (ha : a.OneByte) :
    ∃ t, hostAccess a s = .next t ∧ t.rom = s.rom ∧ t.pending = s.pending := by
  match a, ha with
  | .read off 1, _ => exact ⟨_, rfl, rfl, rfl⟩
  | .reset, _ => exact ⟨_, rfl, rfl, rfl⟩
  | .write off [v], _ =>
    by_cases hc : off = 0x2C#8
    · subst hc
      rw [hostAccess, hostWrite_cmd, issue]
      split
      · obtain ⟨t, ht, _, hr, hp, _⟩ := exec_next (by assumption) s
        exact ⟨t, ht, hr, hp⟩
      · exact ⟨_, rfl, rfl, rfl⟩
    · obtain ⟨_, hr, hp, _⟩ := writeSlot_keeps (slotOf off) v s
      exact ⟨_, hostWrite_data v s hc, hr, hp⟩

/-- No completed access changes a ROM (R29). -/
theorem hostAccess_rom {a : HostAccess} {s t : State} (h : hostAccess a s = .next t) : t.rom = s.rom := by
  rcases hostAccess_cases h with ⟨_, _, rfl⟩ | ⟨off, v, _, _, rfl⟩ | ⟨_, _, _, _, he⟩ | ⟨_, _, _, rfl⟩ | ⟨_, rfl⟩
  · rfl
  · exact (writeSlot_keeps _ _ _).2.1
  · exact (exec_keeps he).2.1
  · rfl
  · rfl

@[simp] theorem step_idle {s : State} (h : s.pending = []) : step s = .next s := by simp [step, h]

theorem step_access {s : State} {a : HostAccess} {rest : List HostAccess} (h : s.pending = a :: rest) :
    step s = hostAccess a (s.setPending rest) := by simp [step, h]

theorem run_succ (M : Host.Core) (k : Nat) (s : M.State) :
    M.run (k + 1) s =
      match M.step s with
      | .next t => M.run k t
      | .fault r => .fault r
      | .refused r => .refused r := rfl

/-- A run goes on from what its first step leaves. -/
theorem run_step {s t : State} (h : step s = .next t) (k : Nat) :
    Host.Core.run Sys2Proof.core (k + 1) s = Host.Core.run Sys2Proof.core k t := by
  have e : Sys2Proof.core.step s = .next t := h
  exact (run_succ Sys2Proof.core k s).trans (by rw [e])

end Sys2Proof.Machine
end

