-- ==== Sys2Proof/Machine/HostProgram.lean ====
section
/-! DEFINITION. The notation for host programs (30_encoding.md R86): each line is one host access or a named run of
several. Nothing of the machine depends on it. -/

namespace Sys2Proof.Machine

/-- `wr OFF, V` (R86). -/
def wr (off v : Byte) : HostAccess := .write off [v]

/-- `rd OFF` (R86). -/
def rd (off : Byte) : HostAccess := .read off 1

/-- `cmd MNEMONIC` (R86): the write of the command's value to CMD. -/
def cmd (i : Instr) : HostAccess := wr cmdOffset (encode i)

/-- Bytes written from an offset upward, lowest first. -/
def wrFrom (base : Byte) (bytes : List Byte) : List HostAccess :=
  bytes.mapIdx fun k b => wr (base + BitVec.ofNat 8 k) b

/-- `n` bytes read from an offset upward, lowest first. -/
def rdFrom (base : Byte) (n : Nat) : List HostAccess :=
  (List.range n).map fun k => rd (base + BitVec.ofNat 8 k)

/-- `ldwire B0 .. B8` (R86). -/
def ldwire (f : WireFrame) : List HostAccess := wrFrom 0x00#8 f.toList

/-- `ldparam B0 .. B6` (R86). -/
def ldparam (f : ParamFrame) : List HostAccess := wrFrom 0x10#8 f.toList

/-- `rdwire` (R86). -/
def rdwire : List HostAccess := rdFrom 0x00#8 9

/-- `rdparam` (R86). -/
def rdparam : List HostAccess := rdFrom 0x10#8 7

/-- A register's bytes, most significant first (R52). -/
def regBytes {w : Nat} (n : Nat) (v : BitVec w) : List Byte :=
  (List.range n).map fun k => getByte v (n - 1 - k)

/-- `ld FA, V` (R86). -/
def ldFA (v : BitVec 24) : List HostAccess := wrFrom 0x18#8 (regBytes 3 v)
/-- `ld FB, V` (R86). -/
def ldFB (v : BitVec 23) : List HostAccess := wrFrom 0x1C#8 (regBytes 3 v)
/-- `ld FC, V` (R86). -/
def ldFC (v : BitVec 25) : List HostAccess := wrFrom 0x20#8 (regBytes 4 v)
/-- `ld PA, V` (R86). -/
def ldPA (v : Payload) : List HostAccess := wrFrom 0x24#8 (regBytes 2 v)
/-- `ld PB, V` (R86). -/
def ldPB (v : Payload) : List HostAccess := wrFrom 0x26#8 (regBytes 2 v)
/-- `ld MASK, V` (R86). -/
def ldMask (v : BitVec 23) : List HostAccess := wrFrom 0x28#8 (regBytes 3 v)

/-- `rdreg FA` (R86). -/
def rdFA : List HostAccess := rdFrom 0x18#8 3
/-- `rdreg FB` (R86). -/
def rdFB : List HostAccess := rdFrom 0x1C#8 3
/-- `rdreg FC` (R86). -/
def rdFC : List HostAccess := rdFrom 0x20#8 4
/-- `rdreg PA` (R86). -/
def rdPA : List HostAccess := rdFrom 0x24#8 2
/-- `rdreg PB` (R86). -/
def rdPB : List HostAccess := rdFrom 0x26#8 2
/-- `rdreg MASK` (R86). -/
def rdMask : List HostAccess := rdFrom 0x28#8 3

end Sys2Proof.Machine
end

