-- ==== Sys2Proof/Tests/Slice0.lean ====
section
/-! SUPPORT. The model's own tests: ill-formed parameter sets are refused, command bytes decode, one or two small tests
for each command with the results of spec/95_test_vectors.md (V-*) or of the command's rule, and for each obligation with
hypotheses a concrete case that meets them. Results marked GK rest on the candidate tables (log 12). -/

namespace Sys2Proof.Tests

set_option Elab.async false

open Sys2Proof Sys2Proof.Machine

/-! ## The parameter check (10_state.md R30 to R33, 93_implementation_defined.md U10) -/

/-- 4096 entries that carry their index in the high 12 bits, the low bits 0. -/
def plainCode : List Nat := (List.range 4096).map (4096 * ·)

/-- 4096 entries of 0. -/
def zeroTable : List Nat := List.replicate 4096 0

/-- A parameter set that meets every constraint: the positions in order, both codes with parity 0, PRNG all 0. -/
def plainImage : RomImage where
  permA := List.range 24
  permB := (List.range 23).map (24 + ·)
  permC := (List.range 25).map (47 + ·)
  golay24 := plainCode
  golay23 := plainCode
  prng := zeroTable

/-- The defect by which a parameter set is refused. -/
def refusedAs (m : RomImage) : Option RomDefect :=
  match m.load with
  | .error d => some d
  | .ok _ => none

theorem refusedAs_eq_defect (m : RomImage) : refusedAs m = m.defect := by
  unfold refusedAs RomImage.load
  cases m.defect <;> rfl

theorem length_plainCode : plainCode.length = 4096 := by rw [plainCode, List.length_map, List.length_range]
theorem length_zeroTable : zeroTable.length = 4096 := List.length_replicate

theorem plainCode_fits : ∀ e ∈ plainCode, e < 2 ^ 24 := by
  intro e he
  obtain ⟨v, hv, rfl⟩ := List.mem_map.mp he
  have := List.mem_range.mp hv
  omega

theorem zeroTable_fits : ∀ e ∈ zeroTable, e < 2 ^ 24 := by
  intro e he; rw [List.eq_of_mem_replicate he]; decide

theorem systematicFrom_range' (n k : Nat) : systematicFrom k ((List.range' k n).map (4096 * ·)) = true := by
  induction n generalizing k with
  | zero => rfl
  | succ n ih => simp [List.range'_succ, systematicFrom, ih]

theorem plainCode_systematic : systematicFrom 0 plainCode = true := by
  rw [plainCode, List.range_eq_range']; exact systematicFrom_range' 4096 0

theorem zeroTable_not_systematic : systematicFrom 0 zeroTable = false := by
  have : ∀ n, systematicFrom 0 (List.replicate (n + 2) 0) = false := fun n => by
    simp [List.replicate_succ, systematicFrom]
  exact this 4094

theorem plainImage_permutations :
    (plainImage.permA.length = 24 ∧ plainImage.permB.length = 23 ∧ plainImage.permC.length = 25) ∧
      (∀ p ∈ plainImage.permA ++ plainImage.permB ++ plainImage.permC, p < 72) ∧
      (plainImage.permA ++ plainImage.permB ++ plainImage.permC).Nodup := by decide +kernel

/-- `plainImage` with other code tables, each of 4096 entries that fit: what remains is the test of the codes. -/
theorem refusedAs_codes (g24 g23 : List Nat) (len24 : g24.length = 4096) (len23 : g23.length = 4096)
    (fit24 : ∀ e ∈ g24, e < 2 ^ 24) (fit23 : ∀ e ∈ g23, e < 2 ^ 24) :
    refusedAs { plainImage with golay24 := g24, golay23 := g23 } =
      if ¬ systematicFrom 0 g24 then some .golay24NotSystematic
      else if ¬ systematicFrom 0 g23 then some .golay23NotSystematic else none := by
  obtain ⟨h1, h2, h3⟩ := plainImage_permutations
  rw [refusedAs_eq_defect]
  unfold RomImage.defect
  rw [if_neg (not_not.mpr h1), if_neg (not_not.mpr h2), if_neg (not_not.mpr h3),
    if_neg (not_not.mpr ⟨len24, len23, length_zeroTable⟩), if_neg (not_not.mpr ?_)]
  intro e he
  rcases List.mem_append.mp he with he | he
  · exact (List.mem_append.mp he).elim (fit24 e) (fit23 e)
  · exact zeroTable_fits e he

theorem test_plain_image_accepted : refusedAs plainImage = none := by
  refine (refusedAs_codes _ _ length_plainCode length_plainCode plainCode_fits plainCode_fits).trans ?_
  rw [plainCode_systematic]; rfl
theorem test_short_permutation_refused :
    refusedAs { plainImage with permA := List.range 23 } = some .permutationLength := by decide +kernel
theorem test_position_72_refused :
    refusedAs { plainImage with permC := (List.range 25).map (48 + ·) } = some .positionOutOfRange := by
  decide +kernel
theorem test_repeated_position_refused :
    refusedAs { plainImage with permB := (List.range 23).map (23 + ·) } = some .positionRepeated := by
  decide +kernel
theorem test_short_table_refused :
    refusedAs { plainImage with prng := List.replicate 4095 0 } = some .tableLength := by decide +kernel
theorem test_wide_entry_refused :
    refusedAs { plainImage with golay24 := List.replicate 4096 (2 ^ 24) } = some .entryTooWide := by decide +kernel
theorem test_golay24_not_systematic_refused :
    refusedAs { plainImage with golay24 := zeroTable, golay23 := plainCode } = some .golay24NotSystematic := by
  refine (refusedAs_codes _ _ length_zeroTable length_plainCode zeroTable_fits plainCode_fits).trans ?_
  rw [zeroTable_not_systematic]; rfl
theorem test_golay23_not_systematic_refused :
    refusedAs { plainImage with golay24 := plainCode, golay23 := zeroTable } = some .golay23NotSystematic := by
  refine (refusedAs_codes _ _ length_plainCode length_zeroTable plainCode_fits zeroTable_fits).trans ?_
  rw [zeroTable_not_systematic, plainCode_systematic]; rfl

/-! ## Command bytes (30_encoding.md R81, R82, R84), written bit by bit as GRP and FN -/

theorem test_decode_control :
    decode 0b00000000#8 = .ok .nop ∧ decode 0b00000001#8 = .ok .decode ∧ decode 0b00000010#8 = .ok .encode :=
  ⟨rfl, rfl, rfl⟩
theorem test_decode_permutation :
    decode 0b00010000#8 = .ok .gatherA ∧ decode 0b00010001#8 = .ok .gatherB ∧ decode 0b00010010#8 = .ok .gatherC ∧
    decode 0b00011000#8 = .ok .scatterA ∧ decode 0b00011001#8 = .ok .scatterB ∧ decode 0b00011010#8 = .ok .scatterC :=
  ⟨rfl, rfl, rfl, rfl, rfl, rfl⟩
theorem test_decode_block_code :
    decode 0b00100000#8 = .ok .extractA ∧ decode 0b00100001#8 = .ok .extractB ∧
    decode 0b00101000#8 = .ok .golay24Enc ∧ decode 0b00101001#8 = .ok .golay23Enc :=
  ⟨rfl, rfl, rfl, rfl⟩
theorem test_decode_scrambler :
    decode 0b00110000#8 = .ok .prngMask ∧ decode 0b00110001#8 = .ok .scrambleB := ⟨rfl, rfl⟩
theorem test_decode_frame_pack :
    decode 0b01000000#8 = .ok .unpackParam ∧ decode 0b01000001#8 = .ok .packParam := ⟨rfl, rfl⟩
/-- V-X1, V-X2: the neighbours of the legal values are no command; and neither is a byte and a half. -/
theorem test_illegal_values_refused :
    (∀ v ∈ [0x03, 0x0F, 0x13, 0x17, 0x1B, 0x1F, 0x22, 0x27, 0x2A, 0x2F, 0x32, 0x3F, 0x42, 0x4F, 0x50, 0x80, 0xFF],
      decodeTableWord 8 v = none) ∧
    decodeTableWord 12 0x001 = none ∧ decodeTableWord 8 0x101 = none ∧ decodeTableWord 8 0x01 = some .decode := by
  decide

/-! ## One step at a time -/

/-- A core at reset over the candidate ROM image. -/
def base : State := State.withRom candidateRom

/-- The state a command leaves. -/
def after (i : Instr) (s : State) : Option State :=
  match exec i s with
  | .next t => some t
  | _ => none

/-- The state a host access leaves. -/
def afterAccess (a : HostAccess) (s : State) : Option State :=
  match hostAccess a s with
  | .next t => some t
  | _ => none

/-- The state a step leaves. -/
def afterStep (s : State) : Option State :=
  match step s with
  | .next t => some t
  | _ => none

/-- V-X4. -/
theorem test_nop : (after .nop { base with ill := true, fb := 5#23 }).map (fun t => (t.ill, t.fb)) =
    some (false, 5#23) := by decide +kernel
/-- V-E2, GK. -/
theorem test_decode_registers :
    (after .decode { base with wire := #v[0x12, 0x34, 0x56, 0x78, 0x9A, 0xBC, 0xDE, 0xF0, 0x0F] }).map
      (fun t => (t.fa, t.fb, t.fc, t.pa, t.pb, t.mask)) =
    some (0x01FE47#24, 0x0F1909#23, 0x066AAA9#25, 0x01F#12, 0x1E3#12, 0x4CD23A#23) := by decide +kernel
/-- V-E6, GK. -/
theorem test_decode_payload_error :
    (after .decode { base with wire := #v[0x47, 0xE5, 0x83, 0xA9, 0xEB, 0x27, 0x43, 0xC7, 0x47] }).map State.param =
    some #v[0x2B, 0xCE, 0xDC, 0xAA, 0xAA, 0xAA, 0x80] := by decide +kernel
/-- V-F13, GK. -/
theorem test_encode_wire :
    (after .encode { base with param := #v[0xAB, 0xC1, 0x23, 0xAA, 0xAA, 0xAA, 0x80] }).map State.wire =
    some #v[0xC7, 0xE5, 0x83, 0xA9, 0xEB, 0x27, 0x43, 0xC7, 0x47] := by decide +kernel
/-- V-F14, GK. -/
theorem test_encode_registers :
    (after .encode { base with param := #v[0x80, 0x08, 0x00, 0x80, 0x00, 0x00, 0x00] }).map
      (fun t => (t.fa, t.mask, t.fb, t.fc)) =
    some (0x800C75#24, 0x5E99DC#23, 0x1E9FE6#23, 0x1000000#25) := by decide +kernel
/-- V-P1, GK. -/
theorem test_gatherA_first_bit :
    (after .gatherA { base with wire := #v[0x80, 0, 0, 0, 0, 0, 0, 0, 0] }).map State.fa = some 0x800000#24 := by
  decide +kernel
/-- V-P2, GK. -/
theorem test_gatherA :
    (after .gatherA { base with wire := #v[0x12, 0x34, 0x56, 0x78, 0x9A, 0xBC, 0xDE, 0xF0, 0x0F] }).map State.fa =
    some 0x01FE47#24 := by decide +kernel
/-- V-P2, GK. -/
theorem test_gatherB :
    (after .gatherB { base with wire := #v[0x12, 0x34, 0x56, 0x78, 0x9A, 0xBC, 0xDE, 0xF0, 0x0F] }).map State.fb =
    some 0x43CB33#23 := by decide +kernel
/-- V-P5, GK. -/
theorem test_gatherB_last_bit :
    (after .gatherB { base with wire := #v[0, 0, 0, 0, 0, 0x20, 0, 0, 0] }).map State.fb = some 0x000001#23 := by
  decide +kernel
/-- V-P2, GK. -/
theorem test_gatherC :
    (after .gatherC { base with wire := #v[0x12, 0x34, 0x56, 0x78, 0x9A, 0xBC, 0xDE, 0xF0, 0x0F] }).map State.fc =
    some 0x066AAA9#25 := by decide +kernel
/-- V-P4, GK. -/
theorem test_gatherC_last_bit :
    (after .gatherC { base with wire := #v[0, 0, 0, 0, 0, 0, 0, 0, 1] }).map State.fc = some 0x0000001#25 := by
  decide +kernel
/-- V-P9, GK. -/
theorem test_scatterA :
    (after .scatterA { base with fa := 0xABCDEF#24 }).map State.wire =
    some #v[0xC0, 0xC4, 0xC4, 0x88, 0x88, 0x00, 0x88, 0x08, 0x88] := by decide +kernel
/-- V-P8, GK. -/
theorem test_scatterA_keeps_other_positions :
    (after .scatterA { base with wire := Vector.replicate 9 0xFF#8 }).map State.wire =
    some #v[0x33, 0x33, 0x33, 0x77, 0x77, 0x77, 0x77, 0x77, 0x77] := by decide +kernel
/-- V-P14, GK. -/
theorem test_scatterB :
    (after .scatterB { base with fb := 0x555555#23 }).map State.wire =
    some #v[0x20, 0x20, 0x20, 0x60, 0x60, 0x60, 0x40, 0x40, 0x40] := by decide +kernel
/-- V-P13, GK. -/
theorem test_scatterB_keeps_other_positions :
    (after .scatterB { base with wire := Vector.replicate 9 0xFF#8 }).map State.wire =
    some #v[0xDD, 0xDD, 0xDD, 0x99, 0x99, 0x9B, 0xBB, 0xBB, 0xBB] := by decide +kernel
/-- V-P15, GK. -/
theorem test_scatterC :
    (after .scatterC { base with fc := 0x1000000#25 }).map State.wire = some #v[0, 0, 0, 0, 0, 0x02, 0, 0, 0] := by
  decide +kernel
/-- V-P18, GK. -/
theorem test_scatterC_keeps_other_positions :
    (after .scatterC { base with wire := Vector.replicate 9 0xFF#8 }).map State.wire =
    some #v[0xEE, 0xEE, 0xEE, 0xEE, 0xEE, 0xEC, 0xCC, 0xCC, 0xCC] := by decide +kernel
/-- V-K1. -/
theorem test_extractA : (after .extractA { base with fa := 0xABCDEF#24 }).map State.pa = some 0xABC#12 := by
  decide +kernel
/-- V-K2. -/
theorem test_extractA_ignores_parity :
    (after .extractA { base with fa := 0x000FFF#24 }).map State.pa = some 0x000#12 := by decide +kernel
/-- V-K4. -/
theorem test_extractB : (after .extractB { base with fb := 0x55E11E#23 }).map State.pb = some 0xABC#12 := by
  decide +kernel
/-- V-K5. -/
theorem test_extractB_ignores_parity :
    (after .extractB { base with fb := 0x0007FF#23 }).map State.pb = some 0x000#12 := by decide +kernel
/-- V-K9, GK. -/
theorem test_golay24Enc : (after .golay24Enc { base with pa := 0xABC#12, pb := 0x123#12 }).map State.fa =
    some 0xABC23C#24 := by decide +kernel
/-- V-K10, GK. -/
theorem test_golay23Enc : (after .golay23Enc { base with pa := 0xABC#12, pb := 0x123#12 }).map State.fb =
    some 0x091856#23 := by decide +kernel
/-- V-S3, GK. -/
theorem test_prngMask : (after .prngMask { base with pa := 0xABC#12, pb := 0x123#12 }).map State.mask =
    some 0x1A6361#23 := by decide +kernel
/-- V-S5. -/
theorem test_scrambleB :
    (after .scrambleB { base with fb := 0x55E11E#23, mask := 0x1A6361#23 }).map State.fb = some 0x4F827F#23 := by
  decide +kernel
/-- V-F2: padding is not read. -/
theorem test_unpackParam :
    (after .unpackParam { base with param := #v[0xAA, 0xBB, 0xCC, 0xDD, 0xEE, 0xFF, 0x01] }).map
      (fun t => (t.pa, t.pb, t.fc)) = some (0xAAB#12, 0xBCC#12, 0x1BBDDFE#25) := by decide +kernel
/-- V-F6. -/
theorem test_packParam :
    (after .packParam { base with pa := 0xFFF#12, fc := 0x1FFFFFF#25 }).map State.param =
    some #v[0xFF, 0xF0, 0x00, 0xFF, 0xFF, 0xFF, 0x80] := by decide +kernel
/-- V-F7: padding is kept. -/
theorem test_packParam_keeps_padding :
    (after .packParam { base with pb := 0xFFF#12, param := Vector.replicate 7 0xFF#8 }).map State.param =
    some #v[0x00, 0x0F, 0xFF, 0x00, 0x00, 0x00, 0x7F] := by decide +kernel

/-! ## The window and the step -/

/-- V-M2, V-M3, V-M4: container bits. -/
theorem test_container_bits :
    (afterAccess (wr 0x1C#8 0xFF#8) base).map State.fb = some 0x7F0000#23 ∧
    (afterAccess (wr 0x20#8 0xFF#8) base).map State.fc = some 0x1000000#25 ∧
    (afterAccess (wr 0x24#8 0xFF#8) base).map State.pa = some 0xF00#12 := by decide +kernel
/-- V-M12, V-M13: big-endian, as the host writes and as it reads. -/
theorem test_big_endian :
    ldFB 0x123456#23 = [wr 0x1C#8 0x12#8, wr 0x1D#8 0x34#8, wr 0x1E#8 0x56#8] ∧
    rdFC.map (fun a => match a with | .read off _ => readWindow off { base with fc := 0x1ABCDEF#25 } | _ => 0x00#8) =
      [0x01#8, 0xAB#8, 0xCD#8, 0xEF#8] := by decide +kernel
/-- P1's bus records. -/
theorem test_program_notation :
    ldparam #v[0xAB, 0xC1, 0x23, 0xAA, 0xAA, 0xAA, 0x80] ++ [cmd .encode, rd 0x2D#8] =
      [.write 0x10#8 [0xAB#8], .write 0x11#8 [0xC1#8], .write 0x12#8 [0x23#8], .write 0x13#8 [0xAA#8],
        .write 0x14#8 [0xAA#8], .write 0x15#8 [0xAA#8], .write 0x16#8 [0x80#8], .write 0x2C#8 [0x02#8],
        .read 0x2D#8 1] := by decide
/-- V-X1: one step that writes an illegal value. -/
theorem test_step_illegal :
    (afterStep { base with pending := [wr 0x2C#8 0x03#8], fb := 5#23 }).map (fun t => (t.ill, t.fb, t.pending)) =
    some (true, 5#23, []) := by decide +kernel
/-- V-X6: a write to STATUS does not clear ILL, and a read of it answers 0x01. -/
theorem test_status :
    (afterAccess (wr 0x2D#8 0x00#8) { base with ill := true }).map State.ill = some true ∧
    (afterAccess (rd 0x2D#8) { base with ill := true }).map State.replies = some [0x01#8] := by decide +kernel
/-- R240: the reset input. -/
theorem test_reset_input :
    (afterAccess .reset { base with ill := true, fb := 5#23 }).map (fun t => (t.ill, t.fb)) = some (false, 0#23) := by
  decide +kernel
/-- The command that `withFetchWord` places is the one the next step runs: V-S5 again. -/
theorem test_withFetchWord :
    (afterStep (State.withFetchWord { base with fb := 0x55E11E#23, mask := 0x1A6361#23 } 8 0x31)).map State.fb =
    some 0x4F827F#23 := by decide +kernel
/-- The same from the machine's own reset state, whose ROM contents are free: SCRAMBLE_B of zeros. -/
theorem test_first_command_after_reset :
    (afterStep (State.reset.withFetchWord 8 0x31)).map (fun t => (t.fb, t.ill)) = some (0#23, false) := rfl

/-! ## Cases that meet the hypotheses of the obligations, one for each clause that has any -/

theorem base_wellFormed : base.rom.WellFormed := candidateRom_wellFormed

theorem witness_StepKeepsRomWellFormed :
    ∃ s t : State, s.Inv ∧ s.pending = [cmd .encode] ∧ step s = .next t :=
  ⟨{ base with pending := [cmd .encode] }, _, base_wellFormed, rfl, rfl⟩

theorem witness_RomsAreReadOnlyAndUnmapped :
    (∃ (a : HostAccess) (s t : State), hostAccess a s = .next t) ∧ (∃ (i : Instr) (s t : State), exec i s = .next t) ∧
    (∃ (x : Payload) (v : Fin 4096), v.val = x.toNat) ∧ ∃ (x : Payload) (v : Fin 4096), v.val = x.toNat ∧ v.val = 4095 :=
  ⟨⟨wr 0x00#8 0xFF#8, base, _, rfl⟩, ⟨.golay24Enc, base, _, rfl⟩, ⟨0x000#12, 0, rfl⟩, ⟨0xFFF#12, 4095, rfl, rfl⟩⟩

theorem load_of_not_refused (m : RomImage) (h : refusedAs m = none) : ∃ r, m.load = .ok r := by
  unfold refusedAs at h
  split at h
  · cases h
  · exact ⟨_, ‹_›⟩

theorem witness_IllFormedImagesAreRefused : ∃ (m : RomImage) (r : Rom), m.load = .ok r :=
  ⟨plainImage, load_of_not_refused plainImage test_plain_image_accepted⟩

theorem witness_StepPerformsTheNextAccess :
    (∃ s : State, s.pending = []) ∧ ∃ (s : State) (a : HostAccess) (rest : List HostAccess), s.pending = a :: rest :=
  ⟨⟨base, rfl⟩, ⟨{ base with pending := [rd 0x2D#8] }, _, _, rfl⟩⟩

theorem witness_StepRunsDecodedCommand :
    ∃ (s : State) (v : Byte) (i : Instr) (rest : List HostAccess),
      s.pending = .write 0x2C#8 [v] :: rest ∧ decode v = .ok i ∧ i.WellFormed :=
  ⟨{ base with pending := [.write 0x2C#8 [0x41#8], rd 0x2D#8] }, 0x41#8, .packParam, _, rfl, rfl, trivial⟩

theorem witness_CmdWriteIssuesCommand :
    (0x00#8 ∈ legalValues ∧ 0x41#8 ∈ legalValues) ∧ (0x03#8 ∉ legalValues ∧ 0xFF#8 ∉ legalValues) ∧
    (0x2B#8 : Byte) ≠ 0x2C#8 ∧ ∃ t, hostAccess (.read 0x2C#8 1) base = .next t :=
  ⟨by decide, by decide, by decide, _, rfl⟩

theorem witness_IllegalCommandOnlySetsIll :
    0x03#8 ∉ legalValues ∧ 0xFF#8 ∉ legalValues ∧
    ∃ (a : HostAccess) (s t : State), hostAccess a s = .next t ∧ s.ill = false ∧ t.ill = true :=
  ⟨by decide, by decide, wr 0x2C#8 0x42#8, base, base.setIll true, rfl, rfl, rfl⟩

/-- Each range of R84 at both its ends. -/
theorem witness_LegalAndIllegalCommandValues :
    ∀ v ∈ [0x50#8, 0xFF#8, 0x03#8, 0x0F#8, 0x13#8, 0x17#8, 0x1B#8, 0x1F#8, 0x22#8, 0x27#8, 0x2A#8, 0x2F#8, 0x32#8,
      0x3F#8, 0x42#8, 0x4F#8], v ∉ legalValues := by decide

theorem witness_DecodeInvertsEncode :
    decode 0x1A#8 = .ok .scatterC ∧ ((7 : Nat) ≠ 8 ∨ 256 ≤ 0) ∧ ((8 : Nat) ≠ 8 ∨ 256 ≤ 256) :=
  ⟨rfl, .inl (by decide), .inr (by decide)⟩

/-- Every group, with every sub-field at every value. -/
theorem witness_CommandFieldsSelectCommand :
    ∀ i ∈ [Instr.nop, .decode, .encode, .gatherA, .gatherB, .gatherC, .scatterA, .scatterB, .scatterC, .extractA,
      .extractB, .golay24Enc, .golay23Enc, .prngMask, .scrambleB, .unpackParam, .packParam], ∃ v, decode v = .ok i := by
  intro i _; exact ⟨encode i, by cases i <;> rfl⟩

/-- The reserved offsets of R51 and R55 at both ends of each range. -/
theorem witness_reserved_offsets :
    ∀ off ∈ [0x09#8, 0x0F#8, 0x17#8, 0x1B#8, 0x1F#8, 0x2B#8, 0x2E#8, 0xFF#8],
      (0x09 ≤ off.toNat ∧ off.toNat ≤ 0x0F) ∨ off = 0x17#8 ∨ off = 0x1B#8 ∨ off = 0x1F#8 ∨ off = 0x2B#8 ∨
        0x2E ≤ off.toNat := by decide

/-- Two bytes that differ in container bits alone, for each of the three widths. -/
theorem witness_ContainerBitsReadZeroAndIgnoreWrites :
    (0xFF#8).extractLsb' 0 7 = (0x7F#8).extractLsb' 0 7 ∧ (0xFF#8).extractLsb' 0 1 = (0x01#8).extractLsb' 0 1 ∧
    (0xFF#8).extractLsb' 0 4 = (0x0F#8).extractLsb' 0 4 := by decide

/-- An offset of each class of the read-back mask, at the ends of its range. -/
theorem witness_WrittenByteReadsBack :
    ∀ off ∈ [0x00#8, 0x08#8, 0x09#8, 0x0F#8, 0x10#8, 0x16#8, 0x17#8, 0x18#8, 0x1A#8, 0x1B#8, 0x1C#8, 0x1D#8, 0x1E#8,
      0x1F#8, 0x20#8, 0x21#8, 0x23#8, 0x24#8, 0x25#8, 0x26#8, 0x27#8, 0x28#8, 0x29#8, 0x2A#8, 0x2B#8, 0x2E#8, 0xFF#8],
      off ≠ 0x2C#8 ∧ off ≠ 0x2D#8 := by decide

/-- A buffer of one byte, at its first and last positions. -/
theorem witness_BitPrimitivesReadAndWriteOneBit :
    ∃ (p q : Fin (8 * 1)) (k : Fin 1), k.val = p.val / 8 ∧ q ≠ p := ⟨0, 7, 0, rfl, by decide⟩

theorem witness_SideEffectsOfAccesses :
    ∃ (s t : State) (off v : Byte), off ≠ 0x2C#8 ∧ hostAccess (.write off [v]) s = .next t :=
  ⟨base, _, 0x1C#8, 0xFF#8, by decide, rfl⟩

theorem witness_IllChangesOnlyAtCommandWrite :
    (∃ (a : HostAccess) (s t : State) (v : Byte), hostAccess a s = .next t ∧ a = .write 0x2C#8 [v]) ∧
    (∃ (a : HostAccess) (s t : State), hostAccess a s = .next t ∧ a = .reset) ∧
    ∃ (a : HostAccess) (s t : State), hostAccess a s = .next t ∧ (∀ v, a ≠ .write 0x2C#8 [v]) ∧ a ≠ .reset :=
  ⟨⟨_, base, _, 0x01#8, rfl, rfl⟩, ⟨_, base, _, rfl, rfl⟩, ⟨.read 0x2D#8 1, base, _, rfl, by simp, by simp⟩⟩

theorem witness_EveryHostAccessCompletes :
    (rd 0x2C#8).OneByte ∧ (wr 0xFF#8 0xFF#8).OneByte ∧ HostAccess.OneByte .reset := ⟨rfl, rfl, trivial⟩

theorem witness_WideAccessIsRefused :
    (0 : Nat) ≠ 1 ∧ (2 : Nat) ≠ 1 ∧ ([] : List Byte).length ≠ 1 ∧ [0x01#8, 0x02#8].length ≠ 1 := by decide

theorem witness_ReadsReturnWindowBytesInOrder :
    ∃ (offs : List Byte) (s : State), offs = [0x18#8, 0x19#8, 0x1A#8] ∧ s.pending = offs.map (fun off => .read off 1) :=
  ⟨_, { base with pending := [rd 0x18#8, rd 0x19#8, rd 0x1A#8] }, rfl, rfl⟩

theorem witness_RunsOverByteAccessesNeverStop :
    ∃ s : State, s.OnlyByteAccesses ∧ s.pending = [wr 0x2C#8 0x03#8, cmd .encode, rd 0x00#8, .reset] :=
  ⟨{ base with pending := [wr 0x2C#8 0x03#8, cmd .encode, rd 0x00#8, .reset] },
    by simp [State.OnlyByteAccesses, HostAccess.OneByte, cmd, wr, rd], rfl⟩

theorem witness_WindowStandsAtAnyBase :
    ∃ (addr : Nat) (off : Byte), off = 0xFF#8 ∧ Config.offsetAt addr = some off :=
  ⟨Config.windowBase + 255, 0xFF#8, rfl, by simp [Config.offsetAt]⟩

theorem witness_NopClearsIllAlone : ∃ s : State, status s = 0x01#8 := ⟨{ base with ill := true }, rfl⟩

theorem witness_all_zero_and_all_one_wire :
    (∀ p < 72, readBit base.wire p = false) ∧ ∃ s : State, ∀ p < 72, readBit s.wire p = true :=
  ⟨by decide +kernel, { base with wire := Vector.replicate 9 0xFF#8 }, by decide +kernel⟩

/-- Position 1 is field A's under GK1, so neither B's nor C's; and in a table without repetition no later entry is the
same. -/
theorem witness_ScatterWritesItsTable :
    (∀ i : Fin 24, base.rom.permA[i] ≠ (71 : WirePos)) ∧ (∀ i : Fin 23, base.rom.permB[i] ≠ (1 : WirePos)) ∧
    (∀ i : Fin 25, base.rom.permC[i] ≠ (1 : WirePos)) ∧
    (∀ j : Fin 24, (0 : Fin 24) < j → base.rom.permA[j] ≠ base.rom.permA[(0 : Fin 24)]) ∧
    (∀ j : Fin 23, (0 : Fin 23) < j → base.rom.permB[j] ≠ base.rom.permB[(0 : Fin 23)]) ∧
    ∀ j : Fin 25, (0 : Fin 25) < j → base.rom.permC[j] ≠ base.rom.permC[(0 : Fin 25)] := by decide +kernel

theorem witness_ExtractTakesThePayloadBits :
    (∃ s : State, s.fa = 0xABCDEF#24 ∧ ∃ f : BitVec 24, f ≠ s.fa ∧ ∀ j < 12, f.getLsbD (12 + j) = s.fa.getLsbD (12 + j)) ∧
    (∃ s : State, s.fa = 0x000000#24) ∧ (∃ s : State, s.fa = 0xFFFFFF#24) ∧
    (∃ s : State, s.fb = 0x55E11E#23 ∧ ∃ f : BitVec 23, f ≠ s.fb ∧ ∀ j < 12, f.getLsbD (11 + j) = s.fb.getLsbD (11 + j)) ∧
    (∃ s : State, s.fb = 0x7FFFFF#23) ∧ ∃ s : State, s.fb = 0x400800#23 :=
  ⟨⟨{ base with fa := 0xABCDEF#24 }, rfl, 0xABC000#24, by decide, by decide⟩, ⟨base, rfl⟩,
    ⟨{ base with fa := 0xFFFFFF#24 }, rfl⟩, ⟨{ base with fb := 0x55E11E#23 }, rfl, 0x55E000#23, by decide, by decide⟩,
    ⟨{ base with fb := 0x7FFFFF#23 }, rfl⟩, ⟨{ base with fb := 0x400800#23 }, rfl⟩⟩

/-- Used by GolayEncodeLooksUpThePayload, ScramblerMasksFieldB, DecodeIsItsComponentSequence, EncodeIsItsComponentSequence
and MaskIsKeyedByPayloadA too: every payload has its index. -/
theorem witness_payload_index :
    (∀ x : Payload, ∃ v : Fin 4096, v.val = x.toNat) ∧ RomTable.Systematic base.rom.golay24 ∧
    RomTable.Systematic base.rom.golay23 :=
  ⟨fun x => ⟨⟨x.toNat, x.isLt⟩, rfl⟩, base_wellFormed.2⟩

theorem witness_ScramblerMasksFieldB :
    (∃ s u : State, u.pa = s.pa ∧ u.rom = s.rom ∧ u.fa ≠ s.fa) ∧ (∃ s : State, s.mask = 0#23) ∧
    (∃ s : State, s.fb = 0x7FFFFF#23 ∧ s.mask = 0x2AAAAA#23) ∧ ∃ s : State, s.fb = 0x55E11E#23 ∧ s.mask = 0x1A6361#23 :=
  ⟨⟨base, { base with fa := 1#24 }, rfl, rfl, by decide⟩, ⟨base, rfl⟩,
    ⟨{ base with fb := 0x7FFFFF#23, mask := 0x2AAAAA#23 }, rfl, rfl⟩,
    ⟨{ base with fb := 0x55E11E#23, mask := 0x1A6361#23 }, rfl, rfl⟩⟩

/-- Two PARAM frames that differ in padding alone; the hypothesis of CommandsIgnorePadding, EncodeIsItsComponentSequence,
ScramblingIsDeterministic and TransformsArePureFunctions too. -/
theorem witness_padding :
    ∃ f : ParamFrame, f ≠ base.param ∧ ∀ q < 49, readBit f q = readBit base.param q :=
  ⟨#v[0, 0, 0, 0, 0, 0, 0x7F], by decide +kernel, by decide +kernel⟩

theorem witness_UnpackLoadsTheFields :
    (∃ s : State, s.param = #v[0xFF#8, 0xFF#8, 0xFF#8, 0xFF#8, 0xFF#8, 0xFF#8, 0xFF#8]) ∧
    ∃ s : State, s.param = #v[0xAB#8, 0xC1#8, 0x23#8, 0xAA#8, 0xAA#8, 0xAA#8, 0x80#8] :=
  ⟨⟨{ base with param := _ }, rfl⟩, ⟨{ base with param := _ }, rfl⟩⟩

theorem witness_PackStoresTheFields :
    (∃ s : State, s.pa = 0#12 ∧ s.pb = 0#12 ∧ s.fc = 0#25 ∧
      s.param = #v[0xFF#8, 0xFF#8, 0xFF#8, 0xFF#8, 0xFF#8, 0xFF#8, 0xFF#8]) ∧
    (∃ s : State, s.pa = 0xABC#12 ∧ s.pb = 0x123#12 ∧ s.fc = 0x1555555#25 ∧
      s.param = #v[0x00#8, 0x00#8, 0x00#8, 0x00#8, 0x00#8, 0x00#8, 0x00#8]) ∧ ∃ q, 49 ≤ q ∧ q < 56 :=
  ⟨⟨{ base with param := _ }, rfl, rfl, rfl, rfl⟩,
    ⟨{ base with pa := 0xABC#12, pb := 0x123#12, fc := 0x1555555#25, param := _ }, rfl, rfl, rfl, rfl⟩, 55, by decide⟩

/-- The tables' hypothesis, which every law of the families has, and the other hypotheses of three of them. -/
theorem witness_well_formed_tables :
    (∃ s : State, s.rom.WellFormed) ∧
    (∃ (l l' : List Instr) (s s' : State), l.Perm [.scatterA, .scatterB, .scatterC] ∧
      l'.Perm [.scatterA, .scatterB, .scatterC] ∧ l ≠ l' ∧ s.rom.WellFormed ∧ s'.rom = s.rom ∧ s'.fa = s.fa ∧
      s'.fb = s.fb ∧ s'.fc = s.fc ∧ s'.wire ≠ s.wire) ∧
    (∃ s u : State, s.rom.WellFormed ∧ u.rom = s.rom ∧ u.fc ≠ s.fc ∧
      (∀ q < 24, readBit u.param q = readBit s.param q) ∧ ∀ q < 49, readBit u.param q = readBit s.param q) ∧
    ∃ s u : State, u.rom = s.rom ∧ u.wire = s.wire ∧ u.param ≠ s.param :=
  ⟨⟨base, base_wellFormed⟩,
    ⟨[.scatterC, .scatterA, .scatterB], [.scatterA, .scatterB, .scatterC], base,
      { base with wire := Vector.replicate 9 0xFF#8 }, by decide, by decide, by decide, base_wellFormed, rfl, rfl, rfl,
      rfl, by decide +kernel⟩,
    ⟨base, { base with fc := 1#25 }, base_wellFormed, rfl, by decide, fun _ _ => rfl, fun _ _ => rfl⟩,
    ⟨base, { base with param := Vector.replicate 7 0xFF#8 }, rfl, rfl, by decide +kernel⟩⟩

/-- Both ends of the bit ranges of the parity and payload clauses. -/
theorem witness_parity_and_payload_bits :
    ((0 : Nat) < 12 ∧ (11 : Nat) < 12 ∧ (0 : Nat) < 11 ∧ (10 : Nat) < 11) ∧
    (∃ i : Fin 24, 12 ≤ i.val) ∧ (∃ i : Fin 24, i.val < 12) ∧ (∃ i : Fin 23, 12 ≤ i.val) ∧ ∃ i : Fin 23, i.val < 12 :=
  ⟨by decide, ⟨23, by decide⟩, ⟨11, by decide⟩, ⟨22, by decide⟩, ⟨11, by decide⟩⟩

theorem witness_DecodeOrdersAgree : ∃ b c : Nat, b ≤ 3 ∧ c ≤ 6 ∧ b = 3 ∧ c = 6 := ⟨3, 6, by decide⟩

/-- A destination register's offsets are shut out, the neighbour's are not. -/
theorem witness_CommandsChangeOnlyTheirDestinations :
    (0x1B#8).toNat ∉ destinationOffsets .gatherA ∧ (0x1B#8 : Byte) ≠ 0x2D#8 ∧
    (0x16#8).toNat ∉ destinationOffsets .encode ∧ (0x00#8).toNat ∉ destinationOffsets .decode := by decide

end Sys2Proof.Tests
end

section
/-! What a window read returns after reset (20_memory.md R51, 70_reset_and_hazards.md R240). -/

namespace Sys2Proof.Machine

@[simp] theorem getByte_zero (w k : Nat) : getByte 0#w k = 0x00#8 := by simp [getByte]

/-- The window shows none of the host's own side: the accesses still to come are not read. -/
@[simp] theorem readWindow_setPending (off : Byte) (s : State) (v : List HostAccess) :
    readWindow off (s.setPending v) = readWindow off s := by
  unfold readWindow
  cases slotOf off <;> rfl

/-- Nor are the replies given so far. -/
@[simp] theorem readWindow_setReplies (off : Byte) (s : State) (v : List Byte) :
    readWindow off (s.setReplies v) = readWindow off s := by
  unfold readWindow
  cases slotOf off <;> rfl

/-- With every register zero each kind of slot reads zero: a frame's byte, a register's byte, and the slots that hold
no register (R26, R27, R51, R55). -/
theorem readSlot_withRom (x : Slot) (r : Rom) : readSlot x (State.withRom r) = 0x00#8 := by
  cases x with
  | wire k | param k => simp [readSlot]
  | fa k | fb k | fc k | pa k | pb k | mask k => simp [readSlot]
  | cmd | status | reserved => rfl

@[simp] theorem readWindow_withRom (off : Byte) (r : Rom) : readWindow off (State.withRom r) = 0x00#8 :=
  readSlot_withRom (slotOf off) r

@[simp] theorem readWindow_resetInput (off : Byte) (s : State) : readWindow off (resetInput s) = 0x00#8 := by
  simp [resetInput]

/-- Settles O2: power-on and the reset input both leave every register zero, and the window reads registers alone. -/
theorem resetWindowReadsZero : Obligations.ResetWindowReadsZero :=
  ⟨fun off => readWindow_withRom off Config.rom, fun s off => ⟨resetInput s, rfl, readWindow_resetInput off s⟩⟩

end Sys2Proof.Machine
end

section
/-! The ROMs are written by nothing and stand in no window offset (10_state.md R29). -/

namespace Sys2Proof.Machine

/-- Each kind of slot reads a register, ILL or a constant, and no slot names a table (R29, R51). -/
theorem readSlot_with_rom (x : Slot) (s : State) (r : Rom) : readSlot x { s with rom := r } = readSlot x s := by
  cases x with
  | wire k | param k => rfl
  | fa k | fb k | fc k | pa k | pb k | mask k => rfl
  | cmd | status | reserved => rfl

/-- So the host cannot see the tables through the window, whatever they are replaced by. -/
theorem readWindow_with_rom (off : Byte) (s : State) (r : Rom) :
    readWindow off { s with rom := r } = readWindow off s :=
  readSlot_with_rom (slotOf off) s r

/-- A command that completes keeps the ROMs (R29). -/
theorem exec_rom {i : Instr} {s t : State} (h : exec i s = .next t) : t.rom = s.rom := by
  obtain ⟨-, hrom, -, -⟩ := exec_keeps h
  exact hrom

/-- Settles O5: accesses and commands keep the ROMs, no slot of the window shows one, and a payload is always the index
of an entry. -/
theorem romsAreReadOnlyAndUnmapped : Obligations.RomsAreReadOnlyAndUnmapped :=
  ⟨fun _ _ _ => hostAccess_rom, fun _ _ _ => exec_rom, readWindow_with_rom, romAt_eq⟩

end Sys2Proof.Machine
end

section
/-! One byte of a register and the bytes around it (20_memory.md R51, R52, R54). A register of several bytes is written
as its high part, the byte at hand, and its low part; the highest byte of the five registers with container bits has
fewer than 8 bits. -/

namespace Sys2Proof.Machine

theorem getByte_eq_extractLsb' {w : Nat} (x : BitVec w) (k : Nat) : getByte x k = x.extractLsb' (8 * k) 8 := by
  refine BitVec.eq_of_getLsbD_eq fun j hj => ?_
  rw [getLsbD_getByte, BitVec.getLsbD_extractLsb']

/-- The highest byte: `c` container bits that read 0 over the register's last `m` bits (R54). -/
theorem getByte_top {w m c : Nat} (x : BitVec w) (k : Nat) (hc : c + m = 8 := by omega)
    (hw : w ≤ 8 * k + m := by omega) :
    getByte x k = (0#c ++ x.extractLsb' (8 * k) m).cast hc := by
  refine BitVec.eq_of_getLsbD_eq fun j hj => ?_
  rw [getLsbD_getByte, BitVec.getLsbD_cast, BitVec.getLsbD_append, BitVec.getLsbD_extractLsb', BitVec.getLsbD_zero]
  by_cases hjm : j < m
  · simp [hjm, hj]
  · simp [hjm, BitVec.getLsbD_of_ge x (8 * k + j) (by omega)]

/-- The container bits of the highest byte, as a run of bits (R54). -/
theorem extractLsb'_getByte_container {w c : Nat} (x : BitVec w) (k n : Nat) (hw : w ≤ 8 * k + c := by omega) :
    (getByte x k).extractLsb' c n = 0#n := by
  refine BitVec.eq_of_getLsbD_eq fun j hj => ?_
  rw [BitVec.getLsbD_extractLsb', getLsbD_getByte, BitVec.getLsbD_of_ge x (8 * k + (c + j)) (by omega)]
  simp

/-- The same for one container bit (R54). -/
theorem getLsbD_getByte_container {w c : Nat} (x : BitVec w) (k : Nat) (hw : w ≤ 8 * k + c := by omega) :
    (getByte x k).getLsbD c = false := by
  rw [getLsbD_getByte, BitVec.getLsbD_of_ge x (8 * k + c) hw, Bool.and_false]

/-- Writing the lowest byte keeps everything above it. -/
theorem putByte_low {h : Nat} (x : BitVec (h + 8)) (v : Byte) : putByte x 0 v = x.extractLsb' 8 h ++ v := by
  refine BitVec.eq_of_getLsbD_eq fun j hj => ?_
  rw [getLsbD_putByte _ _ _ _ (by omega), BitVec.getLsbD_append, BitVec.getLsbD_extractLsb']
  by_cases hlow : j < 8
  · simp [hlow, hj]
  · simp [hlow, show j - 8 < h by omega, show 8 + (j - 8) = j by omega]

/-- Writing a byte keeps the part above it and the bytes below it. -/
theorem putByte_middle {h : Nat} (k : Nat) (x : BitVec (h + 8 + 8 * k)) (v : Byte) :
    putByte x k v = x.extractLsb' (8 * k + 8) h ++ v ++ x.extractLsb' 0 (8 * k) := by
  refine BitVec.eq_of_getLsbD_eq fun j hj => ?_
  rw [getLsbD_putByte _ _ _ _ (by omega), BitVec.getLsbD_append, BitVec.getLsbD_append, BitVec.getLsbD_extractLsb',
    BitVec.getLsbD_extractLsb']
  by_cases hlow : j < 8 * k
  · simp [hlow, Nat.not_le.mpr hlow]
  · by_cases hmid : j < 8 * k + 8
    · simp [hlow, hmid, hj, Nat.not_lt.mp hlow, show j - 8 * k < 8 by omega]
    · simp [hlow, hmid, show ¬ j - 8 * k < 8 by omega, show j - 8 * k - 8 < h by omega,
        show 8 * k + 8 + (j - 8 * k - 8) = j by omega]

/-- Writing the highest byte keeps the bytes below it, and only the byte's low `m` bits count (R54). -/
theorem putByte_top {m : Nat} (k : Nat) (x : BitVec (m + 8 * k)) (v : Byte) (hm : m ≤ 8 := by omega)
    (hw : 8 ≤ m + 8 * k := by omega) :
    putByte x k v = v.extractLsb' 0 m ++ x.extractLsb' 0 (8 * k) := by
  refine BitVec.eq_of_getLsbD_eq fun j hj => ?_
  rw [getLsbD_putByte _ _ _ _ hw, BitVec.getLsbD_append, BitVec.getLsbD_extractLsb', BitVec.getLsbD_extractLsb']
  by_cases hlow : j < 8 * k
  · simp [hlow, Nat.not_le.mpr hlow]
  · simp [hlow, hj, Nat.not_lt.mp hlow, show j < 8 * k + 8 by omega, show j - 8 * k < m by omega]

/-- Two bytes that differ in container bits alone write the same (R54). -/
theorem putByte_top_congr {m : Nat} (k : Nat) (x : BitVec (m + 8 * k)) {v u : Byte}
    (h : v.extractLsb' 0 m = u.extractLsb' 0 m) (hm : m ≤ 8 := by omega) (hw : 8 ≤ m + 8 * k := by omega) :
    putByte x k v = putByte x k u := by
  rw [putByte_top k x v hm hw, putByte_top k x u hm hw, h]

/-- What the register's last `m` bits are after its highest byte is written. -/
theorem extractLsb'_putByte_top {m : Nat} (k : Nat) (x : BitVec (m + 8 * k)) (v : Byte)
    (hm : m ≤ 8 := by omega) (hw : 8 ≤ m + 8 * k := by omega) :
    (putByte x k v).extractLsb' (8 * k) m = v.extractLsb' 0 m := by
  rw [putByte_top k x v hm hw, BitVec.extractLsb'_append_eq_left]

/-- Above the lowest byte, writing byte `k + 1` is writing byte `k` of the part above. -/
theorem extractLsb'_putByte_succ {h : Nat} (k : Nat) (x : BitVec (h + 8)) (v : Byte) (hh : 8 ≤ h) :
    (putByte x (k + 1) v).extractLsb' 8 h = putByte (x.extractLsb' 8 h) k v := by
  refine BitVec.eq_of_getLsbD_eq fun j hj => ?_
  rw [BitVec.getLsbD_extractLsb', getLsbD_putByte _ _ _ _ (by omega), getLsbD_putByte _ _ _ _ hh,
    BitVec.getLsbD_extractLsb', show 8 + j - 8 * (k + 1) = j - 8 * k by omega]
  rw [decide_eq_true hj, Bool.true_and]
  exact if_congr (by omega) rfl rfl

/-- Writing the same byte twice is writing it once (R61). -/
theorem putByte_putByte {w : Nat} (x : BitVec w) (k : Nat) (v : Byte) (hw : 8 ≤ w := by omega) :
    putByte (putByte x k v) k v = putByte x k v := by
  refine BitVec.eq_of_getLsbD_eq fun j _ => ?_
  rw [getLsbD_putByte _ _ _ _ hw, getLsbD_putByte _ _ _ _ hw]
  split <;> rfl

/-! A register made up of the bytes written to it from the lowest offset upward, so from its highest byte down (R52).
Each length is the one before it with one more byte below. -/

theorem putByte_bigEndian₂ {m : Nat} (x : BitVec (m + 8)) (b₀ b₁ : Byte) (hm : m ≤ 8 := by omega) :
    putByte (putByte x 1 b₀) 0 b₁ = b₀.extractLsb' 0 m ++ b₁ := by
  rw [putByte_low, extractLsb'_putByte_top 1 x b₀ hm (by omega)]

theorem putByte_bigEndian₃ {m : Nat} (x : BitVec (m + 8 + 8)) (b₀ b₁ b₂ : Byte) (hm : m ≤ 8 := by omega) :
    putByte (putByte (putByte x 2 b₀) 1 b₁) 0 b₂ = b₀.extractLsb' 0 m ++ b₁ ++ b₂ := by
  rw [putByte_low, extractLsb'_putByte_succ _ _ _ (by omega), extractLsb'_putByte_succ _ _ _ (by omega),
    putByte_bigEndian₂ _ _ _ hm]

theorem putByte_bigEndian₄ {m : Nat} (x : BitVec (m + 8 + 8 + 8)) (b₀ b₁ b₂ b₃ : Byte) (hm : m ≤ 8 := by omega) :
    putByte (putByte (putByte (putByte x 3 b₀) 2 b₁) 1 b₂) 0 b₃ = b₀.extractLsb' 0 m ++ b₁ ++ b₂ ++ b₃ := by
  rw [putByte_low, extractLsb'_putByte_succ _ _ _ (by omega), extractLsb'_putByte_succ _ _ _ (by omega),
    extractLsb'_putByte_succ _ _ _ (by omega), putByte_bigEndian₃ _ _ _ _ hm]

end Sys2Proof.Machine
end

section
/-! The byte map of the window, and what a read and a write do at each of its rows (20_memory.md R51 to R55). -/

namespace Sys2Proof.Machine

theorem slotOf_wire (k : Fin 9) : slotOf (BitVec.ofNat 8 k.val) = .wire k := by
  revert k; decide

theorem slotOf_param (k : Fin 7) : slotOf (BitVec.ofNat 8 (0x10 + k.val)) = .param k := by
  revert k; decide

/-- The offsets without a row are the ones R55 lists. -/
theorem slotOf_eq_reserved (off : Byte) :
    slotOf off = .reserved ↔
      (0x09 ≤ off.toNat ∧ off.toNat ≤ 0x0F) ∨ off = 0x17#8 ∨ off = 0x1B#8 ∨ off = 0x1F#8 ∨ off = 0x2B#8 ∨
        0x2E ≤ off.toNat := by
  revert off; decide

theorem readWindow_of_slotOf {off : Byte} {x : Slot} (s : State) (h : slotOf off = x) :
    readWindow off s = readSlot x s := by
  rw [readWindow, h]

/-- A data write leaves what the plain window write leaves (R51). -/
theorem hostAccess_write_data {off v : Byte} {s t : State} (hoff : off ≠ 0x2C#8) (ht : writeWindow off v s = t) :
    hostAccess (.write off [v]) s = .next t :=
  ht ▸ hostWrite_data v s hoff

/-- The same by the slot that the offset names. -/
theorem hostAccess_write_of_slotOf {off : Byte} {x : Slot} (v : Byte) (s : State) (h : slotOf off = x)
    (hx : x ≠ .cmd) : hostAccess (.write off [v]) s = .next (writeSlot x v s) :=
  hostAccess_write_data (fun e => hx (h ▸ (slotOf_eq_cmd off).mpr e)) (by rw [writeWindow, h])

/-- Two bytes with the same plain write make the same access. -/
theorem hostAccess_write_congr {off v u : Byte} {s : State} (hoff : off ≠ 0x2C#8)
    (h : writeWindow off v s = writeWindow off u s) :
    hostAccess (.write off [v]) s = hostAccess (.write off [u]) s :=
  (hostAccess_write_data hoff h).trans (hostAccess_write_data hoff rfl).symm

/-- STATUS shows ILL in its lowest bit (R27). -/
theorem status_eq_append (s : State) : status s = 0#7 ++ BitVec.ofBool s.ill := by
  unfold status
  cases s.ill <;> rfl

/-- A reserved offset reads 0x00 (R55). -/
theorem readWindow_reserved {off : Byte} (s : State) (h : slotOf off = .reserved) : readWindow off s = 0x00#8 :=
  readWindow_of_slotOf s h

/-- A reserved offset ignores writes (R55). -/
theorem hostAccess_write_reserved {off : Byte} (v : Byte) (s : State) (h : slotOf off = .reserved) :
    hostAccess (.write off [v]) s = .next s :=
  hostAccess_write_of_slotOf v s h nofun

/-- Settles O15, row by row: the frames' bytes by their slots; the bytes of each register as its highest byte, those
between, and its lowest; then CMD, STATUS and the reserved offsets. -/
theorem windowByteMap : Obligations.WindowByteMap := fun s v =>
  ⟨fun k => ⟨readWindow_of_slotOf s (slotOf_wire k), hostAccess_write_of_slotOf v s (slotOf_wire k) nofun⟩,
    fun k => ⟨readWindow_of_slotOf s (slotOf_param k), hostAccess_write_of_slotOf v s (slotOf_param k) nofun⟩,
    ⟨getByte_eq_extractLsb' s.fa 2, hostAccess_write_data (by decide)
      (congrArg s.setFA (by rw [putByte_top (m := 8) 2 s.fa v, BitVec.extractLsb'_eq_self]))⟩,
    ⟨getByte_eq_extractLsb' s.fa 1, hostAccess_write_data (by decide) (congrArg s.setFA (putByte_middle 1 s.fa v))⟩,
    ⟨getByte_eq_extractLsb' s.fa 0, hostAccess_write_data (by decide) (congrArg s.setFA (putByte_low s.fa v))⟩,
    ⟨getByte_top s.fb 2, hostAccess_write_data (by decide) (congrArg s.setFB (putByte_top (m := 7) 2 s.fb v))⟩,
    ⟨getByte_eq_extractLsb' s.fb 1, hostAccess_write_data (by decide) (congrArg s.setFB (putByte_middle 1 s.fb v))⟩,
    ⟨getByte_eq_extractLsb' s.fb 0, hostAccess_write_data (by decide) (congrArg s.setFB (putByte_low s.fb v))⟩,
    ⟨getByte_top s.fc 3, hostAccess_write_data (by decide) (congrArg s.setFC (putByte_top (m := 1) 3 s.fc v))⟩,
    ⟨getByte_eq_extractLsb' s.fc 2, hostAccess_write_data (by decide) (congrArg s.setFC (putByte_middle 2 s.fc v))⟩,
    ⟨getByte_eq_extractLsb' s.fc 1, hostAccess_write_data (by decide) (congrArg s.setFC (putByte_middle 1 s.fc v))⟩,
    ⟨getByte_eq_extractLsb' s.fc 0, hostAccess_write_data (by decide) (congrArg s.setFC (putByte_low s.fc v))⟩,
    ⟨getByte_top s.pa 1, hostAccess_write_data (by decide) (congrArg s.setPA (putByte_top (m := 4) 1 s.pa v))⟩,
    ⟨getByte_eq_extractLsb' s.pa 0, hostAccess_write_data (by decide) (congrArg s.setPA (putByte_low s.pa v))⟩,
    ⟨getByte_top s.pb 1, hostAccess_write_data (by decide) (congrArg s.setPB (putByte_top (m := 4) 1 s.pb v))⟩,
    ⟨getByte_eq_extractLsb' s.pb 0, hostAccess_write_data (by decide) (congrArg s.setPB (putByte_low s.pb v))⟩,
    ⟨getByte_top s.mask 2, hostAccess_write_data (by decide) (congrArg s.setMask (putByte_top (m := 7) 2 s.mask v))⟩,
    ⟨getByte_eq_extractLsb' s.mask 1,
      hostAccess_write_data (by decide) (congrArg s.setMask (putByte_middle 1 s.mask v))⟩,
    ⟨getByte_eq_extractLsb' s.mask 0, hostAccess_write_data (by decide) (congrArg s.setMask (putByte_low s.mask v))⟩,
    ⟨rfl, hostWrite_cmd v s⟩,
    ⟨status_eq_append s, hostAccess_write_data (by decide) rfl⟩,
    fun off h =>
      have hslot := (slotOf_eq_reserved off).mpr h
      ⟨readWindow_reserved s hslot, hostAccess_write_reserved v s hslot⟩⟩

/-- Settles O16: above a register's width `getByte` finds no bit and `putByte` keeps none. -/
theorem containerBitsReadZeroAndIgnoreWrites : Obligations.ContainerBitsReadZeroAndIgnoreWrites := by
  intro s v u
  refine ⟨⟨getLsbD_getByte_container s.fb 2, extractLsb'_getByte_container s.fc 3 7,
    extractLsb'_getByte_container s.pa 1 4, extractLsb'_getByte_container s.pb 1 4,
    getLsbD_getByte_container s.mask 2⟩, fun h => ⟨?_, ?_⟩, fun h => ?_, fun h => ⟨?_, ?_⟩,
    s.setFB (putByte s.fb 2 0xFF#8), rfl, ?_, ?_⟩
  · exact hostAccess_write_congr (by decide) (congrArg s.setFB (putByte_top_congr 2 s.fb h))
  · exact hostAccess_write_congr (by decide) (congrArg s.setMask (putByte_top_congr 2 s.mask h))
  · exact hostAccess_write_congr (by decide) (congrArg s.setFC (putByte_top_congr 3 s.fc h))
  · exact hostAccess_write_congr (by decide) (congrArg s.setPA (putByte_top_congr 1 s.pa h))
  · exact hostAccess_write_congr (by decide) (congrArg s.setPB (putByte_top_congr 1 s.pb h))
  · exact extractLsb'_putByte_top (m := 7) 2 s.fb 0xFF#8
  · exact getByte_putByte s.fb 2 0xFF#8 (by decide)

/-- Settles O17: a read of a reserved offset only answers, and a write to one changes nothing. -/
theorem reservedOffsetsAreInert : Obligations.ReservedOffsetsAreInert := fun s off v h =>
  have hslot := (slotOf_eq_reserved off).mpr h
  ⟨readWindow_reserved s hslot, hostAccess_write_reserved v s hslot, _, rfl, rfl⟩

end Sys2Proof.Machine
end

section
/-! The order of the bytes in the window and of the bits in a frame's bytes (20_memory.md R52, R53, R56). -/

namespace Sys2Proof.Machine

/-- Frame position `8k + j` is bit `7 - j` of byte `k` (R53). -/
theorem readBit_byte {n : Nat} (buf : Vector Byte n) (k : Fin n) (j : Fin 8) :
    readBit buf (8 * k.val + j.val) = buf[k].getLsbD (7 - j.val) := by
  rw [readBit_of_lt _ _ (by omega)]
  simp only [show (8 * k.val + j.val) / 8 = k.val by omega, show (8 * k.val + j.val) % 8 = j.val by omega]
  rfl

/-- The host finds position `8k + j` of WIRE at offset `k` (R51, R53). -/
theorem readBit_wire_window (s : State) (k : Fin 9) (j : Fin 8) :
    readBit s.wire (8 * k.val + j.val) = (readWindow (BitVec.ofNat 8 k.val) s).getLsbD (7 - j.val) := by
  rw [readBit_byte, readWindow_of_slotOf s (slotOf_wire k)]
  rfl

/-- The host finds position `8k + j` of PARAM at offset `0x10 + k` (R51, R53). -/
theorem readBit_param_window (s : State) (k : Fin 7) (j : Fin 8) :
    readBit s.param (8 * k.val + j.val) = (readWindow (BitVec.ofNat 8 (0x10 + k.val)) s).getLsbD (7 - j.val) := by
  rw [readBit_byte, readWindow_of_slotOf s (slotOf_param k)]
  rfl

/-- Settles O19: each register is its bytes in the order of their offsets, and a frame's first position is the first
byte's top bit. -/
theorem registersAreBigEndian : Obligations.RegistersAreBigEndian := fun s b₀ b₁ b₂ b₃ =>
  ⟨(putByte_bigEndian₃ (m := 8) s.fa b₀ b₁ b₂).trans (by rw [BitVec.extractLsb'_eq_self]),
    putByte_bigEndian₃ (m := 7) s.fb b₀ b₁ b₂, putByte_bigEndian₄ (m := 1) s.fc b₀ b₁ b₂ b₃,
    putByte_bigEndian₂ (m := 4) s.pa b₀ b₁, putByte_bigEndian₂ (m := 4) s.pb b₀ b₁,
    putByte_bigEndian₃ (m := 7) s.mask b₀ b₁ b₂, readBit_wire_window s 0 0, readBit_param_window s 0 0⟩

/-- Settles O20: the two frames' positions as the host reads them; position 48 and the padding are PARAM byte 6. -/
theorem framePositionsInBytes : Obligations.FramePositionsInBytes := by
  intro s
  refine ⟨readBit_wire_window s, readBit_param_window s, readBit_param_window s 6 0, fun j => ?_⟩
  have hpadding := readBit_param_window s 6 j.succ
  rwa [Fin.val_succ, show 8 * (6 : Fin 7).val + (j.val + 1) = 49 + j.val from by simp; omega,
    show 7 - (j.val + 1) = 6 - j.val by omega] at hpadding

/-- Shifting a bit down and masking it is reading it. -/
theorem getLsbD_eq_shift_and_one (x : Byte) (i : Nat) : x.getLsbD i = ((x >>> i) &&& 1#8 == 1#8) := by
  rw [BitVec.and_one_eq_setWidth_ofBool_getLsbD, BitVec.getLsbD_ushiftRight, Nat.add_zero]
  cases x.getLsbD i <;> rfl

/-- Settles O21: the byte's bit by shift and mask, then the two halves of `readBit_writeBit`. -/
theorem bitPrimitivesReadAndWriteOneBit : Obligations.BitPrimitivesReadAndWriteOneBit := by
  intro n buf p b
  refine ⟨fun k hk => ?_, ?_, fun q hq => readBit_writeBit_ne buf b (Fin.val_ne_of_ne hq)⟩
  · rw [readBit_of_lt buf p.val p.isLt, getLsbD_eq_shift_and_one]
    simp only [Fin.getElem_fin, hk]
  · rw [readBit_writeBit, if_pos ⟨rfl, p.isLt⟩]

end Sys2Proof.Machine
end

section
/-! What an access does beside its answer (20_memory.md R61, 30_encoding.md R80). -/

namespace Sys2Proof.Machine

/-- The plain write of a byte made twice is one write, whatever the slot (R61). -/
theorem writeSlot_writeSlot (x : Slot) (v : Byte) (s : State) : writeSlot x v (writeSlot x v s) = writeSlot x v s := by
  cases x with
  | wire k => exact congrArg s.setWire (Vector.set_set v k.isLt)
  | param k => exact congrArg s.setParam (Vector.set_set v k.isLt)
  | fa k => exact congrArg s.setFA (putByte_putByte s.fa k v)
  | fb k => exact congrArg s.setFB (putByte_putByte s.fb k v)
  | fc k => exact congrArg s.setFC (putByte_putByte s.fc k v)
  | pa k => exact congrArg s.setPA (putByte_putByte s.pa k v)
  | pb k => exact congrArg s.setPB (putByte_putByte s.pb k v)
  | mask k => exact congrArg s.setMask (putByte_putByte s.mask k v)
  | cmd | status | reserved => rfl

/-- The values that decode are the 17 of R82. -/
theorem decode_isOk (v : Byte) : (decode v).isOk = decide (v ∈ legalValues) := by
  revert v; decide

/-- Every command byte leaves a next state, and ILL then says whether the byte was illegal (R80, R211). -/
theorem issue_ill (v : Byte) (s : State) : ∃ t, issue v s = .next t ∧ t.ill = decide (v ∉ legalValues) := by
  have hlegal := decode_isOk v
  rw [issue]
  cases hv : decode v with
  | ok i =>
    rw [hv] at hlegal
    obtain ⟨t, ht, hill, -⟩ := exec_next i s
    exact ⟨t, ht, by rw [hill, decide_not, ← hlegal]; rfl⟩
  | error e =>
    rw [hv] at hlegal
    obtain ⟨w⟩ := e
    exact ⟨s.setIll true, rfl, by rw [decide_not, ← hlegal]; rfl⟩

/-- Settles O22. The state of the last clause has FB zero and MASK one: SCRAMBLE_B changes FB to one, and back. -/
theorem sideEffectsOfAccesses : Obligations.SideEffectsOfAccesses := by
  refine ⟨fun s off => ⟨_, rfl, rfl⟩, fun s t off v hoff h => ?_, fun s v => hostAccess_write_data (by decide) rfl,
    fun s off v h => hostAccess_write_reserved v s ((slotOf_eq_reserved off).mpr h), fun s v => issue_ill v s,
    State.reset.setMask 1#23, _, _, rfl, rfl, by decide, by decide⟩
  rw [hostAccess_write_data hoff rfl] at h
  cases h
  exact hostAccess_write_data hoff (writeSlot_writeSlot (slotOf off) v s)

end Sys2Proof.Machine
end

section
/-! The command byte: which values decode, to what, and what writing one to CMD does (30_encoding.md R80 to R84). -/

namespace Sys2Proof.Machine

/-- A byte decodes to a command only if it is that command's row of R82. -/
theorem eq_encode_of_decode {v : Byte} {i : Instr} (h : decode v = .ok i) : v = encode i := by
  unfold decode at h
  split at h <;> cases h <;> rfl

/-- The decoder refuses a byte by that byte's own name (R84). -/
theorem eq_illegalCommand_of_decode {v : Byte} {e : DecodeError} (h : decode v = .error e) : e = .illegalCommand v := by
  unfold decode at h
  split at h <;> cases h
  rfl

theorem exists_decode_of_legal {v : Byte} (h : v ∈ legalValues) : ∃ i, decode v = .ok i := by
  have hok := decode_isOk v
  cases hv : decode v with
  | ok i => exact ⟨i, rfl⟩
  | error e => simp [hv, h, Except.isOk, Except.toBool] at hok

theorem decode_of_illegal {v : Byte} (h : v ∉ legalValues) : decode v = .error (.illegalCommand v) := by
  have hok := decode_isOk v
  cases hv : decode v with
  | ok i => simp [hv, h, Except.isOk, Except.toBool] at hok
  | error e => rw [eq_illegalCommand_of_decode hv]

/-- A write of a byte that decodes performs its command (R80). -/
theorem hostAccess_write_cmd_of_decode {v : Byte} {i : Instr} (s : State) (h : decode v = .ok i) :
    hostAccess (.write 0x2C#8 [v]) s = exec i s := by
  rw [hostAccess, hostWrite_cmd, issue, h]

/-- A write of any other byte raises IllegalCommand (R80, R210). -/
theorem hostAccess_write_cmd_of_illegal {v : Byte} (s : State) (h : v ∉ legalValues) :
    hostAccess (.write 0x2C#8 [v]) s = raiseIllegalCommand v s := by
  rw [hostAccess, hostWrite_cmd, issue, decode_of_illegal h]

/-- Settles O10: a byte written to CMD decodes or does not, and each way has its one effect; the other accesses are
the data write and the read, which issue nothing. -/
theorem cmdWriteIssuesCommand : Obligations.CmdWriteIssuesCommand := by
  refine fun s v => ⟨fun hv => ?legal, hostAccess_write_cmd_of_illegal s, fun off hoff => hostAccess_write_data hoff rfl,
    fun off t h => ?read⟩
  case legal =>
    obtain ⟨i, hi⟩ := exists_decode_of_legal hv
    obtain ⟨t, ht, hill, -⟩ := exec_next i s
    exact ⟨i, t, hi, hostAccess_write_cmd_of_decode s hi, ht, hill⟩
  case read =>
    cases h
    rfl

/-- The illegal values are the ranges of R84, those of groups 5 to F and the gaps in groups 0 to 4. -/
theorem not_mem_legalValues_iff (v : Byte) :
    v ∉ legalValues ↔
      (0x50 ≤ v.toNat ∧ v.toNat ≤ 0xFF) ∨ (0x03 ≤ v.toNat ∧ v.toNat ≤ 0x0F) ∨ (0x13 ≤ v.toNat ∧ v.toNat ≤ 0x17) ∨
      (0x1B ≤ v.toNat ∧ v.toNat ≤ 0x1F) ∨ (0x22 ≤ v.toNat ∧ v.toNat ≤ 0x27) ∨ (0x2A ≤ v.toNat ∧ v.toNat ≤ 0x2F) ∨
      (0x32 ≤ v.toNat ∧ v.toNat ≤ 0x3F) ∨ (0x42 ≤ v.toNat ∧ v.toNat ≤ 0x4F) := by
  revert v; decide

theorem length_filter_illegal :
    ((List.range 256).filter fun v => BitVec.ofNat 8 v ∉ legalValues).length = 239 := by decide +kernel

/-- Settles O12: the rows of R82 hold by evaluation, the ranges of R84 and their count by going through the bytes; that
the decoder refuses what is not listed, and CMD with it, holds by the laws above. -/
theorem legalAndIllegalCommandValues : Obligations.LegalAndIllegalCommandValues :=
  ⟨rfl, rfl, rfl, rfl, rfl, rfl, rfl, rfl, rfl, rfl, rfl, rfl, rfl, rfl, rfl, rfl, rfl, rfl, length_filter_illegal,
    not_mem_legalValues_iff, fun _ => decode_of_illegal, fun s _ => hostAccess_write_cmd_of_illegal s⟩

/-- Settles O14: the byte is the command's row of R82, and the commands fall into the five groups. -/
theorem commandFieldsSelectCommand : Obligations.CommandFieldsSelectCommand := by
  intro v i h
  obtain rfl := eq_encode_of_decode h
  clear h
  cases i with
  | nop | decode | encode => exact .inl (by decide)
  | gatherA | gatherB | gatherC | scatterA | scatterB | scatterC => exact .inr (.inl (by decide))
  | extractA | extractB | golay24Enc | golay23Enc => exact .inr (.inr (.inl (by decide)))
  | prngMask | scrambleB => exact .inr (.inr (.inr (.inl (by decide))))
  | unpackParam | packParam => exact .inr (.inr (.inr (.inr (by decide))))

end Sys2Proof.Machine
end

section
/-! Gathers and scatters through any table, and the six commands that run them (41_permutation.md R100 to R107). -/

namespace Sys2Proof.Machine

/-- Settles O32: each command is `gather` through its field's table, read bit by bit, and a constant WIRE gathers to a
constant field. -/
theorem gatherReadsItsTable : Obligations.GatherReadsItsTable := by
  intro s
  refine ⟨fun n T => getLsbD_gather T s, ⟨rfl, _, exec_gatherA s, rfl, ?fieldA, ?zerosA, ?onesA⟩,
    ⟨rfl, _, exec_gatherB s, rfl, ?fieldB, ?onesB⟩, ⟨rfl, _, exec_gatherC s, rfl, ?fieldC, ?onesC⟩⟩
  case fieldA => exact getLsbD_gather s.rom.permA s
  case zerosA => exact gather_zero s.rom.permA s
  case onesA => exact fun h => (gather_ones s.rom.permA s h).trans (by decide)
  case fieldB => exact getLsbD_gather s.rom.permB s
  case onesB => exact fun h => (gather_ones s.rom.permB s h).trans (by decide)
  case fieldC => exact getLsbD_gather s.rom.permC s
  case onesC => exact fun h => (gather_ones s.rom.permC s h).trans (by decide)

/-- A completed scatter writes WIRE and ILL alone (R80, R101). -/
theorem setIll_scatter {n : Nat} (v : BitVec n) (T : Vector WirePos n) (s : State) (b : Bool) :
    (scatter v T s).setIll b = { s with wire := ((scatter v T s).setIll b).wire, ill := b } := rfl

/-- Settles O33: each command is `scatter` of its field register through the field's table, which changes WIRE alone,
keeps the positions outside the table, and leaves at each named position the bit of its last entry. -/
theorem scatterWritesItsTable : Obligations.ScatterWritesItsTable := by
  intro s
  refine ⟨fun n v T => ⟨rfl, readBit_scatter_of_forall_ne v T s, readBit_scatter_last v T s⟩,
    ⟨rfl, _, exec_scatterA s, setIll_scatter _ _ s false, ?keepsA, ?writesA⟩,
    ⟨rfl, _, exec_scatterB s, setIll_scatter _ _ s false, ?keepsB, ?writesB⟩,
    ⟨rfl, _, exec_scatterC s, setIll_scatter _ _ s false, ?keepsC, ?writesC⟩⟩
  case keepsA => exact readBit_scatter_of_forall_ne s.fa s.rom.permA s
  case writesA => exact readBit_scatter_last s.fa s.rom.permA s
  case keepsB => exact readBit_scatter_of_forall_ne s.fb s.rom.permB s
  case writesB => exact readBit_scatter_last s.fb s.rom.permB s
  case keepsC => exact readBit_scatter_of_forall_ne s.fc s.rom.permC s
  case writesC => exact readBit_scatter_last s.fc s.rom.permC s

end Sys2Proof.Machine
end

section
/-! Payload bits and code tables, and the four commands on them (42_block_code.md R120 to R124). -/

namespace Sys2Proof.Machine

/-- The payload is the field register without its parity bits (R121, R122). -/
theorem toNat_extractLsb'_top {w : Nat} (x : BitVec w) (p n : Nat) (hw : w ≤ p + n := by omega) :
    (x.extractLsb' p n).toNat = x.toNat / 2 ^ p := by
  have hx : x.toNat < 2 ^ n * 2 ^ p :=
    calc x.toNat < 2 ^ w := x.isLt
      _ ≤ 2 ^ (p + n) := Nat.pow_le_pow_right (by decide) hw
      _ = 2 ^ n * 2 ^ p := by rw [Nat.add_comm, Nat.pow_add]
  rw [BitVec.extractLsb'_toNat, Nat.shiftRight_eq_div_pow, Nat.mod_eq_of_lt (Nat.div_lt_of_lt_mul (by rwa [Nat.mul_comm]))]

/-- Bit `j` of the payload is the field register's bit `j` places above the parity bits. -/
theorem getLsbD_extractLsb'_of_lt {w : Nat} (x : BitVec w) (p n : Nat) :
    ∀ j < n, (x.extractLsb' p n).getLsbD j = x.getLsbD (p + j) := fun j hj => by
  rw [BitVec.getLsbD_extractLsb', decide_eq_true hj, Bool.true_and]

/-- Registers with the same payload bits have the same payload, whatever their parity bits (R121, R122). -/
theorem extractLsb'_congr {w : Nat} {x y : BitVec w} (p n : Nat)
    (h : ∀ j < n, x.getLsbD (p + j) = y.getLsbD (p + j)) : x.extractLsb' p n = y.extractLsb' p n :=
  BitVec.eq_of_getLsbD_eq fun j hj => by
    rw [getLsbD_extractLsb'_of_lt x p n j hj, getLsbD_extractLsb'_of_lt y p n j hj, h j hj]

/-- An entry of a systematic table holds its payload above its low 12 bits (R31, R32). -/
theorem getLsbD_romAt_systematic {t : RomTable} (h : RomTable.Systematic t) (v : Payload) :
    ∀ j < 12, (romAt t v).getLsbD (12 + j) = v.getLsbD j := fun j hj => by
  rw [← getLsbD_extractLsb'_of_lt _ 12 12 j hj, romAt_systematic h]

/-- The same one bit lower, after the top 23 bits are taken (R124). -/
theorem getLsbD_top23_romAt_systematic {t : RomTable} (h : RomTable.Systematic t) (v : Payload) :
    ∀ j < 12, (top23 (romAt t v)).getLsbD (11 + j) = v.getLsbD j := fun j hj => by
  rw [getLsbD_top23 _ _ (by omega), ← getLsbD_romAt_systematic h v j hj, ← Nat.add_assoc]

/-- Settles O34: each command is `extractLsb'` of its field register, which depends on the payload bits alone; the
rules' values follow by evaluation. -/
theorem extractTakesThePayloadBits : Obligations.ExtractTakesThePayloadBits := by
  intro s
  refine ⟨⟨rfl, _, exec_extractA s, rfl, toNat_extractLsb'_top s.fa 12 12, getLsbD_extractLsb'_of_lt s.fa 12 12,
      fun f hf => ⟨_, exec_extractA _, extractLsb'_congr 12 12 hf⟩, ?zerosA, ?onesA, ?mixedA⟩,
    ⟨rfl, _, exec_extractB s, rfl, toNat_extractLsb'_top s.fb 11 12, getLsbD_extractLsb'_of_lt s.fb 11 12,
      fun f hf => ⟨_, exec_extractB _, extractLsb'_congr 11 12 hf⟩, ?onesB, ?endsB, ?mixedB⟩⟩
  case zerosA | onesA | mixedA => exact fun h => (congrArg (BitVec.extractLsb' 12 12) h).trans (by decide)
  case onesB | endsB | mixedB => exact fun h => (congrArg (BitVec.extractLsb' 11 12) h).trans (by decide)

/-- Settles O35: each command is the lookup `romAt` of its payload, for FB less bit 0 by `top23`. -/
theorem golayEncodeLooksUpThePayload : Obligations.GolayEncodeLooksUpThePayload := by
  intro s
  refine ⟨⟨rfl, _, exec_golay24Enc s, rfl, romAt_eq s.rom.golay24 s.pa, ?payloadA⟩,
    ⟨rfl, _, exec_golay23Enc s, rfl, fun v hv => ?entryB, ?payloadB⟩⟩
  case payloadA => exact fun h => getLsbD_romAt_systematic h s.pa
  case entryB => exact (toNat_top23 _).trans (by rw [romAt_eq s.rom.golay23 s.pb v hv])
  case payloadB => exact fun h => getLsbD_top23_romAt_systematic h s.pb

end Sys2Proof.Machine
end

section
/-! The mask from PRNG, the two commands on it, and the mask of the transforms (43_scrambler.md R150 to R152). -/

namespace Sys2Proof.Machine

/-- The top 23 bits of a table's entry are the entry at the payload's index, halved (R124, R150, R151). -/
theorem toNat_top23_romAt (t : RomTable) (x : Payload) (v : Fin 4096) (h : v.val = x.toNat) :
    (top23 (romAt t x)).toNat = t[v].toNat / 2 := by
  rw [toNat_top23, romAt_eq t x v h]

/-- The mask depends on the payload A and the tables alone (R151). -/
theorem exec_prngMask_congr {s u : State} (hpa : u.pa = s.pa) (hrom : u.rom = s.rom) :
    ∃ w, exec .prngMask u = .next w ∧ w.mask = top23 (romAt s.rom.prng s.pa) :=
  ⟨_, exec_prngMask u, by rw [State.setIll_mask, State.setMask_mask, hpa, hrom]⟩

/-- A sequence goes on from the state its first command leaves. -/
theorem runCommands_cons_of_exec {i : Instr} {s t : State} (l : List Instr) (h : exec i s = .next t) :
    runCommands (i :: l) s = runCommands l t := by
  rw [runCommands, h]

/-- The second SCRAMBLE_B takes off the mask that the first put on (R152). -/
theorem runCommands_scrambleB_scrambleB (s : State) :
    runCommands [.scrambleB, .scrambleB] s = .next (s.setIll false) := by
  have hback : s.fb ^^^ s.mask ^^^ s.mask = s.fb := by rw [BitVec.xor_assoc, BitVec.xor_self, BitVec.xor_zero]
  calc runCommands [.scrambleB, .scrambleB] s
    _ = runCommands [.scrambleB] ((s.setFB (s.fb ^^^ s.mask)).setIll false) :=
      runCommands_cons_of_exec _ (exec_scrambleB s)
    _ = .next ((s.setFB (s.fb ^^^ s.mask ^^^ s.mask)).setIll false) :=
      runCommands_cons_of_exec [] (exec_scrambleB _)
    _ = .next (s.setIll false) := by rw [hback]; rfl

/-- Settles O36: the mask is the halved PRNG entry of PA, and SCRAMBLE_B is `^^^` with it, its own inverse; the rules'
values follow by evaluation. -/
theorem scramblerMasksFieldB : Obligations.ScramblerMasksFieldB := by
  intro s
  refine ⟨⟨rfl, _, exec_prngMask s, rfl, toNat_top23_romAt s.rom.prng s.pa, fun _ => exec_prngMask_congr⟩,
    ⟨rfl, _, exec_scrambleB s, rfl, fun j _ => BitVec.getLsbD_xor, ?zeroMask, runCommands_scrambleB_scrambleB s,
      ?alternating, ?mixed⟩⟩
  case zeroMask => exact fun hmask => (congrArg (s.fb ^^^ ·) hmask).trans BitVec.xor_zero
  case alternating | mixed => exact fun hfb hmask => (congrArg₂ (· ^^^ ·) hfb hmask).trans (by decide)

/-- Settles O50: each transform leaves as MASK the top 23 bits of the PRNG entry of the PA it leaves, and dropping bit 0
is the shift by one. -/
theorem maskIsKeyedByPayloadA : Obligations.MaskIsKeyedByPayloadA := by
  refine fun s => ⟨⟨_, exec_decode s, fun v hv => ?decode⟩, _, exec_encode s, fun v hv => ?encode⟩
  case decode =>
    rw [State.setIll_pa] at hv
    rw [State.setIll_mask, decodeFrame_mask, Nat.shiftRight_one, toNat_top23_romAt _ _ v hv]
  case encode =>
    rw [State.setIll_pa] at hv
    rw [State.setIll_mask, encodeFrame_mask, Nat.shiftRight_one, toNat_top23_romAt _ _ v hv]

end Sys2Proof.Machine
end

section
/-! A sequence of commands is the sequence of their effects (30_encoding.md R80, 44_frame_transform.md R173): no command
reads ILL, so clearing it after each one or once at the end comes to the same. -/

namespace Sys2Proof.Machine

/-- What a command does to the registers before it completes. -/
def effect (i : Instr) : State → State :=
  match i with
  | .nop => id
  | .decode => decodeFrame
  | .encode => encodeFrame
  | .gatherA => gatherFieldA
  | .gatherB => gatherFieldB
  | .gatherC => gatherFieldC
  | .scatterA => scatterFieldA
  | .scatterB => scatterFieldB
  | .scatterC => scatterFieldC
  | .extractA => extractPayloadA
  | .extractB => extractPayloadB
  | .golay24Enc => encodeGolay24
  | .golay23Enc => encodeGolay23
  | .prngMask => formMask
  | .scrambleB => scrambleFieldB
  | .unpackParam => unpackFields
  | .packParam => packFields

/-- A command is its effect, completed (R80). -/
theorem exec_eq_complete_effect (i : Instr) (s : State) : exec i s = complete (effect i s) := by
  cases i <;> rfl

/-- The effects of a list of commands, one after the other. -/
def effects (l : List Instr) (s : State) : State := l.foldl (fun s i => effect i s) s

theorem effects_cons (i : Instr) (l : List Instr) (s : State) : effects (i :: l) s = effects l (effect i s) := rfl

theorem effects_append (l m : List Instr) (s : State) : effects (l ++ m) s = effects m (effects l s) :=
  List.foldl_append

/-- DECODE is made of its components' effects in the order of R174. -/
theorem decodeFrame_eq_effects :
    decodeFrame =
      effects [.gatherA, .extractA, .gatherB, .prngMask, .scrambleB, .extractB, .gatherC, .packParam] := rfl

/-- ENCODE is made of its components' effects in the order of R176. -/
theorem encodeFrame_eq_effects :
    encodeFrame =
      effects [.unpackParam, .golay24Enc, .prngMask, .golay23Enc, .scrambleB, .scatterA, .scatterB, .scatterC] := rfl

/-- A component command neither reads nor writes ILL before it completes. -/
theorem effect_setIll_of_component {i : Instr} (hi : i ≠ .decode ∧ i ≠ .encode) (s : State) (b : Bool) :
    effect i (s.setIll b) = (effect i s).setIll b := by
  cases i
  case decode => exact absurd rfl hi.1
  case encode => exact absurd rfl hi.2
  all_goals rfl

theorem effects_setIll_of_components {l : List Instr} (hl : ∀ i ∈ l, i ≠ .decode ∧ i ≠ .encode) (s : State)
    (b : Bool) : effects l (s.setIll b) = (effects l s).setIll b := by
  induction l generalizing s with
  | nil => rfl
  | cons i l ih =>
    obtain ⟨hi, hl⟩ := List.forall_mem_cons.mp hl
    rw [effects_cons, effects_cons, effect_setIll_of_component hi, ih hl]

/-- Nor do the composites, being made of components. -/
theorem effect_setIll (i : Instr) (s : State) (b : Bool) : effect i (s.setIll b) = (effect i s).setIll b := by
  by_cases hdec : i = .decode
  · subst hdec
    rw [effect, decodeFrame_eq_effects]
    exact effects_setIll_of_components (by decide) s b
  by_cases henc : i = .encode
  · subst henc
    rw [effect, encodeFrame_eq_effects]
    exact effects_setIll_of_components (by decide) s b
  exact effect_setIll_of_component ⟨hdec, henc⟩ s b

/-- What a command does depends on no earlier ILL. -/
theorem exec_setIll (i : Instr) (s : State) (b : Bool) : exec i (s.setIll b) = exec i s := by
  rw [exec_eq_complete_effect, exec_eq_complete_effect, effect_setIll]
  rfl

/-- An effect leaves the tables alone (R29). -/
theorem effect_rom (i : Instr) (s : State) : (effect i s).rom = s.rom :=
  (State.setIll_rom (effect i s) false).symm.trans (exec_rom (exec_eq_complete_effect i s))

theorem effects_rom (l : List Instr) (s : State) : (effects l s).rom = s.rom := by
  induction l generalizing s with
  | nil => rfl
  | cons i l ih => rw [effects_cons, ih, effect_rom]

/-- Commands issued one after the other are their effects one after the other, completed once (R58, R80). -/
theorem runCommands_eq_complete_effects (i : Instr) (l : List Instr) (s : State) :
    runCommands (i :: l) s = complete (effects (i :: l) s) := by
  induction l generalizing i s with
  | nil =>
    rw [runCommands_cons_of_exec [] (exec_eq_complete_effect i s)]
    rfl
  | cons j l ih =>
    calc runCommands (i :: j :: l) s
      _ = runCommands (j :: l) ((effect i s).setIll false) :=
        runCommands_cons_of_exec _ (exec_eq_complete_effect i s)
      _ = runCommands (j :: l) (effect i s) := by rw [runCommands, runCommands, exec_setIll]
      _ = complete (effects (i :: j :: l) s) := by rw [ih, effects_cons i]

end Sys2Proof.Machine
end

section
/-! The two commands between PARAM and the payload registers (44_frame_transform.md R170 to R172). -/

namespace Sys2Proof.Machine

/-- The field at the start of PARAM: its bit `n-1-i` stands at position `i` (R170). -/
theorem getLsbD_paramField_zero (n : Nat) (buf : ParamFrame) (i : Fin n) :
    (paramField 0 n buf).getLsbD (n - 1 - i.val) = readBit buf i.val := by
  rw [getLsbD_paramField, Nat.zero_add]

/-- Settles O37: each register is the `paramField` of its positions, read bit by bit; all the positions are below the
padding. -/
theorem unpackLoadsTheFields : Obligations.UnpackLoadsTheFields := by
  intro s
  refine ⟨rfl, _, exec_unpackParam s, rfl, getLsbD_paramField_zero 12 s.param, getLsbD_paramField 12 12 s.param,
    getLsbD_paramField 24 25 s.param, fun f hf => ⟨_, exec_unpackParam _, ?padA, ?padB, ?padC⟩, ?ones, ?mixed⟩
  case padA => exact paramField_congr 0 12 fun q _ hq => hf q (by omega)
  case padB => exact paramField_congr 12 12 fun q _ hq => hf q (by omega)
  case padC => exact paramField_congr 24 25 fun q _ hq => hf q (by omega)
  case ones | mixed =>
    intro h
    simp only [unpackFields, h, State.setIll_pa, State.setIll_pb, State.setIll_fc, State.setFC_pa, State.setFC_pb,
      State.setFC_fc, State.setPB_pa, State.setPB_pb, State.setPA_pa]
    decide +kernel

theorem packFields_param (s : State) :
    (packFields s).param = putParamField 24 s.fc (putParamField 12 s.pb (putParamField 0 s.pa s.param)) := rfl

/-! PARAM after PACK_PARAM at the positions of PA, PB and FC, and in the padding. -/

theorem readBit_packFields_pa (s : State) (i : Fin 12) :
    readBit (packFields s).param i.val = s.pa.getLsbD (11 - i.val) := by
  rw [readBit_packFields, if_neg (by omega), if_neg (by omega), if_pos i.isLt, getLsbD_logical s.pa i]

theorem readBit_packFields_pb (s : State) (i : Fin 12) :
    readBit (packFields s).param (12 + i.val) = s.pb.getLsbD (11 - i.val) := by
  rw [readBit_packFields, if_neg (by omega), if_pos (by omega), Nat.add_sub_cancel_left, getLsbD_logical s.pb i]

theorem readBit_packFields_fc (s : State) (i : Fin 25) :
    readBit (packFields s).param (24 + i.val) = s.fc.getLsbD (24 - i.val) := by
  rw [readBit_packFields, if_pos (by omega), Nat.add_sub_cancel_left, getLsbD_logical s.fc i]

theorem readBit_packFields_padding (s : State) (q : Nat) (hq : 49 ≤ q) :
    readBit (packFields s).param q = readBit s.param q := by
  rw [readBit_packFields, if_neg (by omega), if_neg (by omega), if_neg (by omega)]

/-- A completed write of PARAM writes PARAM and ILL alone (R80, R172). -/
theorem setIll_setParam (s : State) (v : ParamFrame) (b : Bool) :
    (s.setParam v).setIll b = { s with param := ((s.setParam v).setIll b).param, ill := b } := rfl

/-- Settles O38: PARAM read at each of its positions; the rule's two frames follow by evaluation. -/
theorem packStoresTheFields : Obligations.PackStoresTheFields := by
  intro s
  refine ⟨rfl, _, exec_packParam s, setIll_setParam s _ false, readBit_packFields_pa s, readBit_packFields_pb s,
    readBit_packFields_fc s, fun q hq _ => readBit_packFields_padding s q hq, ?zeros, ?mixed⟩
  case zeros | mixed =>
    intro hpa hpb hfc hparam
    rw [State.setIll_param, packFields_param, hpa, hpb, hfc, hparam]
    decide +kernel

end Sys2Proof.Machine
end

section
/-! DECODE as its component sequence (44_frame_transform.md R174). -/

namespace Sys2Proof.Machine

/-- A completed state that keeps WIRE, the tables and the host's side differs in the other registers alone. -/
theorem setIll_eq_of_wire {s t : State} (b : Bool) (wire : t.wire = s.wire) (rom : t.rom = s.rom)
    (pending : t.pending = s.pending) (replies : t.replies = s.replies) :
    t.setIll b = { s with
      fa := (t.setIll b).fa, pa := (t.setIll b).pa, fb := (t.setIll b).fb, mask := (t.setIll b).mask,
      pb := (t.setIll b).pb, fc := (t.setIll b).fc, param := (t.setIll b).param, ill := b } :=
  State.eq_of_fields wire rfl rfl rfl rfl rfl rfl rfl rfl rom pending replies

/-- DECODE gathers field B from WIRE and takes the mask off it, bit by bit (R174). -/
theorem getLsbD_decodeFrame_fb (s : State) (i : Fin 23) :
    (decodeFrame s).fb.getLsbD (22 - i.val) =
      (readBit s.wire (s.rom.permB[i]).val ^^ (decodeFrame s).mask.getLsbD (22 - i.val)) := by
  rw [decodeFrame_fb, BitVec.getLsbD_xor, ← getLsbD_gather s.rom.permB s i]

/-- A lookup less bit 0 is the entry whose index is the payload, less bit 0 (R124, R150). -/
theorem top23_romAt (t : RomTable) (x : Payload) (v : Fin 4096) (h : v.val = x.toNat) :
    top23 (romAt t x) = t[v].extractLsb' 1 23 := by
  rw [romAt_eq t x v h, top23]

/-- A payload taken from the top 23 bits of an entry is the entry's own top 12 bits. -/
theorem extractLsb'_top23 (w : RomWord) : (top23 w).extractLsb' 11 12 = w.extractLsb' 12 12 := by
  refine BitVec.eq_of_getLsbD_eq fun j hj => ?_
  rw [getLsbD_extractLsb'_of_lt _ 11 12 j hj, getLsbD_extractLsb'_of_lt w 12 12 j hj, getLsbD_top23 w _ (by omega),
    ← Nat.add_assoc]

/-- A WIRE of zeros decodes to zero payloads A and C, and to the mask of payload 0 as payload B (R174). -/
theorem decodeFrame_of_zero_wire (s : State) (h : ∀ p < 72, readBit s.wire p = false) :
    (decodeFrame s).pa = 0#12 ∧ (decodeFrame s).fc = 0#25 ∧
      (decodeFrame s).pb = (s.rom.prng[0]).extractLsb' 12 12 := by
  have hpa : (decodeFrame s).pa = 0#12 := by
    rw [decodeFrame_pa, decodeFrame_fa, gather_zero s.rom.permA s h, BitVec.extractLsb'_zero]
  refine ⟨hpa, ?_, ?_⟩
  · rw [decodeFrame_fc, gather_zero s.rom.permC s h]
  · rw [decodeFrame_pb, decodeFrame_fb, gather_zero s.rom.permB s h, BitVec.zero_xor, decodeFrame_mask, hpa,
      extractLsb'_top23]
    rfl

/-- Settles O39: the components' effects in order are `decodeFrame`, whose registers are read by its laws. -/
theorem decodeIsItsComponentSequence : Obligations.DecodeIsItsComponentSequence := by
  intro s
  refine ⟨rfl, _, exec_decode s, ?sequence, ?frame, ?fa, ?pa, ?mask, ?fb, ?pb, ?fc, ?padding, ?zeros⟩
  case sequence => rw [runCommands_eq_complete_effects, ← decodeFrame_eq_effects, complete]
  case frame =>
    exact setIll_eq_of_wire false (decodeFrame_wire s) (decodeFrame_rom s) (decodeFrame_pending s)
      (decodeFrame_replies s)
  case fa =>
    intro i
    rw [State.setIll_fa, decodeFrame_fa, getLsbD_gather s.rom.permA s i]
  case pa => exact decodeFrame_pa s
  case mask =>
    intro v hv
    rw [State.setIll_pa] at hv
    rw [State.setIll_mask, decodeFrame_mask, top23_romAt _ _ v hv]
  case fb => exact getLsbD_decodeFrame_fb s
  case pb => exact decodeFrame_pb s
  case fc =>
    intro i
    rw [State.setIll_fc, decodeFrame_fc, getLsbD_gather s.rom.permC s i]
  case padding =>
    intro q hq _
    rw [State.setIll_param, readBit_decodeFrame_param, if_neg (by omega), if_neg (by omega), if_neg (by omega)]
  case zeros => exact decodeFrame_of_zero_wire s

end Sys2Proof.Machine
end

section
/-! Scatters through tables without a common position commute (41_permutation.md R101, R109). -/

namespace Sys2Proof.Machine

theorem writeBit_comm {n : Nat} (buf : Vector Byte n) {p q : Nat} (b c : Bool) (h : p ≠ q) :
    writeBit (writeBit buf p b) q c = writeBit (writeBit buf q c) p b := by
  refine frame_ext fun r _ => ?_
  simp only [readBit_writeBit]
  by_cases hp : r = p
  · simp [hp, h]
  · simp [hp]

/-- A bit at a position the scatter does not name may be written before it or after it. -/
theorem scatterBits_writeBit {m n : Nat} (v : BitVec n) (pos : Fin n → Nat) (buf : Vector Byte m) (q : Nat) (b : Bool)
    (h : ∀ i, pos i ≠ q) : scatterBits v pos (writeBit buf q b) = writeBit (scatterBits v pos buf) q b :=
  List.foldl_hom (writeBit · q b) fun buf i => writeBit_comm buf b (v.getMsbD i.val) (h i).symm

/-- So may every bit of another scatter. -/
theorem scatterBits_comm {m n k : Nat} (v : BitVec n) (w : BitVec k) (pos : Fin n → Nat) (pos' : Fin k → Nat)
    (buf : Vector Byte m) (h : ∀ i j, pos i ≠ pos' j) :
    scatterBits v pos (scatterBits w pos' buf) = scatterBits w pos' (scatterBits v pos buf) :=
  (List.foldl_hom (scatterBits v pos) fun buf j =>
    (scatterBits_writeBit v pos buf (pos' j) (w.getMsbD j.val) fun i => h i j).symm).symm

theorem scatter_comm {n k : Nat} (v : BitVec n) (w : BitVec k) (T : Vector WirePos n) (U : Vector WirePos k)
    (s : State) (h : ∀ (i : Fin n) (j : Fin k), (T[i]).val ≠ (U[j]).val) :
    scatter v T (scatter w U s) = scatter w U (scatter v T s) :=
  congrArg s.setWire (scatterBits_comm v w _ _ s.wire h)

/-- The three commands that scatter a field register into WIRE (R105 to R107). -/
def scatterCommands : List Instr := [.scatterA, .scatterB, .scatterC]

theorem effect_scatterA (s : State) : effect .scatterA s = scatter s.fa s.rom.permA s := rfl
theorem effect_scatterB (s : State) : effect .scatterB s = scatter s.fb s.rom.permB s := rfl
theorem effect_scatterC (s : State) : effect .scatterC s = scatter s.fc s.rom.permC s := rfl

/-- Over a well-formed ROM image any two scatters may change places: two of different fields share no position (R33,
R109). -/
theorem effect_comm_of_scatter {i j : Instr} (hi : i ∈ scatterCommands) (hj : j ∈ scatterCommands) {s : State}
    (h : s.rom.WellFormed) : effect i (effect j s) = effect j (effect i s) := by
  have hAB := scatter_comm s.fa s.fb s.rom.permA s.rom.permB s h.permA_ne_permB
  have hAC := scatter_comm s.fa s.fc s.rom.permA s.rom.permC s h.permA_ne_permC
  have hBC := scatter_comm s.fb s.fc s.rom.permB s.rom.permC s h.permB_ne_permC
  simp only [scatterCommands, List.mem_cons, List.not_mem_nil, or_false] at hi hj
  obtain rfl | rfl | rfl := hi <;> obtain rfl | rfl | rfl := hj <;>
    simp only [effect_scatterA, effect_scatterB, effect_scatterC, fa_scatter, fb_scatter, fc_scatter, rom_scatter,
      hAB, hAC, hBC]

/-- Over a well-formed ROM image the order of any scatters does not matter (R109). -/
theorem effects_perm_of_scatters {l m : List Instr} (hlm : l.Perm m) (hl : ∀ i ∈ l, i ∈ scatterCommands) {s : State}
    (h : s.rom.WellFormed) : effects l s = effects m s := by
  induction hlm generalizing s with
  | nil => rfl
  | cons i _ ih =>
    exact ih (List.forall_mem_cons.mp hl).2 (by rwa [effect_rom])
  | swap i j l =>
    obtain ⟨hj, hl⟩ := List.forall_mem_cons.mp hl
    obtain ⟨hi, -⟩ := List.forall_mem_cons.mp hl
    exact congrArg (effects l) (effect_comm_of_scatter hi hj h)
  | trans hlk _ ih₁ ih₂ => exact (ih₁ hl h).trans (ih₂ (fun i hi => hl i (hlk.mem_iff.mpr hi)) h)

end Sys2Proof.Machine
end

section
/-! ENCODE as its component sequence (44_frame_transform.md R176). -/

namespace Sys2Proof.Machine

/-- A completed state that keeps PARAM, the tables and the host's side differs in the other registers alone. -/
theorem setIll_eq_of_param {s t : State} (b : Bool) (param : t.param = s.param) (rom : t.rom = s.rom)
    (pending : t.pending = s.pending) (replies : t.replies = s.replies) :
    t.setIll b = { s with
      pa := (t.setIll b).pa, pb := (t.setIll b).pb, fc := (t.setIll b).fc, fa := (t.setIll b).fa,
      mask := (t.setIll b).mask, fb := (t.setIll b).fb, wire := (t.setIll b).wire, ill := b } :=
  State.eq_of_fields rfl param rfl rfl rfl rfl rfl rfl rfl rom pending replies

/-- The five commands of ENCODE before its scatters (R176). -/
def encodeBeforeScatters : List Instr := [.unpackParam, .golay24Enc, .prngMask, .golay23Enc, .scrambleB]

/-- Over a well-formed ROM image ENCODE may scatter its fields in any order (R176). -/
theorem effects_encodeBeforeScatters_append {l : List Instr} (hl : l.Perm scatterCommands) {s : State}
    (h : s.rom.WellFormed) : effects (encodeBeforeScatters ++ l) s = encodeFrame s :=
  calc effects (encodeBeforeScatters ++ l) s
    _ = effects l (effects encodeBeforeScatters s) := effects_append encodeBeforeScatters l s
    _ = effects scatterCommands (effects encodeBeforeScatters s) :=
      effects_perm_of_scatters hl (fun _ => hl.mem_iff.mp) (by rwa [effects_rom])
    _ = encodeFrame s := by rw [← effects_append, encodeFrame_eq_effects, encodeBeforeScatters, scatterCommands]; rfl

/-- Settles O40: the components' effects in order are `encodeFrame`, whose registers are read by its laws; over
well-formed tables every WIRE position is written once, so neither its earlier bit nor the scatters' order counts. -/
theorem encodeIsItsComponentSequence : Obligations.EncodeIsItsComponentSequence := by
  intro s
  refine ⟨rfl, _, exec_encode s, ?sequence, ?frame, ?pa, ?pb, ?fc, ?fa, ?mask, ?fb,
    fun h => ⟨fun w => ⟨_, exec_encode _, ?wire⟩, fun l hl => ?orders⟩⟩
  case sequence => rw [runCommands_eq_complete_effects, ← encodeFrame_eq_effects, complete]
  case frame =>
    exact setIll_eq_of_param false (encodeFrame_param s) (encodeFrame_rom s) (encodeFrame_pending s)
      (encodeFrame_replies s)
  case pa =>
    intro i
    rw [State.setIll_pa, encodeFrame_pa, getLsbD_paramField_zero 12 s.param i]
  case pb =>
    intro i
    rw [State.setIll_pb, encodeFrame_pb, getLsbD_paramField 12 12 s.param i]
  case fc =>
    intro i
    rw [State.setIll_fc, encodeFrame_fc, getLsbD_paramField 24 25 s.param i]
  case fa =>
    intro v hv
    rw [State.setIll_pa] at hv
    rw [State.setIll_fa, encodeFrame_fa, romAt_eq _ _ v hv]
  case mask =>
    intro v hv
    rw [State.setIll_pa] at hv
    rw [State.setIll_mask, encodeFrame_mask, top23_romAt _ _ v hv]
  case fb =>
    intro v hv
    rw [State.setIll_pb] at hv
    rw [State.setIll_fb, State.setIll_mask, encodeFrame_fb, top23_romAt _ _ v hv]
  case wire =>
    rw [State.setIll_wire, State.setIll_wire]
    exact encodeFrame_wire_congr h rfl fun _ _ => rfl
  case orders =>
    have hany := effects_encodeBeforeScatters_append hl h
    rw [encodeBeforeScatters, List.cons_append] at hany
    rw [List.cons_append, runCommands_eq_complete_effects, hany, complete]

end Sys2Proof.Machine
end

section
/-! NOP, and what the host reads at STATUS after it (45_control.md R200). -/

namespace Sys2Proof.Machine

/-- A one-byte read appends what stands at its offset to the replies (R61; log 2). -/
theorem hostAccess_read (off : Byte) (s : State) :
    hostAccess (.read off 1) s = .next (s.setReplies (s.replies ++ [readWindow off s])) := rfl

/-- STATUS stands at offset 0x2D (R51). -/
theorem readWindow_status (s : State) : readWindow 0x2D#8 s = status s := rfl

theorem status_of_not_ill {s : State} (h : s.ill = false) : status s = 0x00#8 := by
  rw [status_eq_append, h]
  rfl

/-- Settles O31: the written byte decodes to NOP, whose one effect is the clear of ILL, and STATUS shows ILL alone. The
read-back is the same whatever STATUS was before. -/
theorem nopClearsIllAlone : Obligations.NopClearsIllAlone := by
  intro s
  have hdecode : decode 0x00#8 = .ok .nop := rfl
  have hwrite : hostAccess (.write 0x2C#8 [0x00#8]) s = .next (s.setIll false) :=
    (hostAccess_write_cmd_of_decode s hdecode).trans (exec_nop s)
  refine ⟨hdecode, exec_nop s, fun _ => ⟨_, _, hwrite, hostAccess_read 0x2D#8 (s.setIll false), ?_⟩⟩
  rw [State.setReplies_replies, State.setIll_replies, readWindow_status, status_of_not_ill (State.setIll_ill s false)]

end Sys2Proof.Machine
end

section
/-! STATUS.ILL and the completion of accesses (60_exceptions.md R210 to R214): what each access leaves in ILL, and that
no access of one byte stops. -/

namespace Sys2Proof.Machine

/-- A CMD write leaves in ILL whether its byte was illegal (R80, R211). -/
theorem hostAccess_write_cmd_ill {v : Byte} {s t : State} (h : hostAccess (.write 0x2C#8 [v]) s = .next t) :
    t.ill = decide (v ∉ legalValues) := by
  obtain ⟨u, hu, hill⟩ := issue_ill v s
  rw [hostAccess, hostWrite_cmd, hu] at h
  cases h
  exact hill

/-- An access that is neither a CMD write nor the reset input leaves ILL as it was (R211). -/
theorem hostAccess_ill_of_ne {a : HostAccess} {s t : State} (h : hostAccess a s = .next t)
    (hcmd : ∀ v, a ≠ .write 0x2C#8 [v]) (hreset : a ≠ .reset) : t.ill = s.ill := by
  rcases hostAccess_cases h with
    ⟨off, -, rfl⟩ | ⟨off, v, -, -, rfl⟩ | ⟨v, i, rfl, -, -⟩ | ⟨v, rfl, -, -⟩ | ⟨rfl, -⟩
  · exact State.setReplies_ill s _
  · exact (writeSlot_keeps (slotOf off) v s).1
  · exact absurd rfl (hcmd v)
  · exact absurd rfl (hcmd v)
  · exact absurd rfl hreset

/-- Settles O23, one kind of access at a time: the CMD write, the reset input, and every other. -/
theorem illChangesOnlyAtCommandWrite : Obligations.IllChangesOnlyAtCommandWrite := by
  refine fun a s t h => ⟨?cmd, ?reset, hostAccess_ill_of_ne h⟩
  case cmd =>
    rintro v rfl
    exact hostAccess_write_cmd_ill h
  case reset =>
    rintro rfl
    cases h
    exact State.resetInput_ill s

/-- ILL is set by the write of an illegal value to CMD and by no other access (R210). -/
theorem exists_illegal_write_of_ill_set {a : HostAccess} {s t : State} (h : hostAccess a s = .next t)
    (hs : s.ill = false) (ht : t.ill = true) : ∃ v, v ∉ legalValues ∧ a = .write 0x2C#8 [v] := by
  obtain ⟨-, hreset, hother⟩ := illChangesOnlyAtCommandWrite a s t h
  by_cases hcmd : ∃ v, a = .write 0x2C#8 [v]
  · obtain ⟨v, rfl⟩ := hcmd
    have hill := hostAccess_write_cmd_ill h
    rw [ht] at hill
    exact ⟨v, of_decide_eq_true hill.symm, rfl⟩
  · by_cases ha : a = .reset
    · simp [hreset ha] at ht
    · simp [hother (not_exists.mp hcmd) ha, hs] at ht

theorem status_of_ill {s : State} (h : s.ill = true) : status s = 0x01#8 := by
  rw [status_eq_append, h]
  rfl

/-- Settles O11: an illegal byte is raised, which sets ILL alone, and STATUS then shows it. -/
theorem illegalCommandOnlySetsIll : Obligations.IllegalCommandOnlySetsIll :=
  ⟨fun s _ hv => ⟨hostAccess_write_cmd_of_illegal s hv,
      (readWindow_status (s.setIll true)).trans (status_of_ill (State.setIll_ill s true))⟩,
    fun _ _ _ => exists_illegal_write_of_ill_set⟩

/-- A one-byte read completes and leaves ILL as it was (R211, R214). -/
theorem hostAccess_read_completes (off : Byte) (s : State) :
    ∃ t, hostAccess (.read off 1) s = .next t ∧ t.ill = s.ill :=
  ⟨_, hostAccess_read off s, State.setReplies_ill s _⟩

/-- Settles O24: every access of one byte completes; a read only answers, and the STATUS slot and the reserved slots
ignore writes. -/
theorem everyHostAccessCompletes : Obligations.EveryHostAccessCompletes := by
  refine ⟨fun a s ha => ?completes, fun s v => hostAccess_write_of_slotOf (x := .status) v s rfl nofun,
    hostAccess_read_completes 0x2C#8, fun s off v h => ⟨hostAccess_read_completes off s, s, ?reserved, rfl⟩⟩
  case completes =>
    obtain ⟨t, ht, -, -⟩ := hostAccess_completes s ha
    exact ⟨t, ht⟩
  case reserved => exact hostAccess_write_reserved v s ((slotOf_eq_reserved off).mpr h)

/-- Settles O30: `exec_next` covers each of the 17 commands. -/
theorem legalCommandsNeverFail : Obligations.LegalCommandsNeverFail := by
  intro i s
  obtain ⟨t, ht, hill, -⟩ := exec_next i s
  exact ⟨t, ht, hill⟩

end Sys2Proof.Machine
end

section
/-! What power-on and the reset input leave in the frames and in STATUS (70_reset_and_hazards.md R240). -/

namespace Sys2Proof.Machine

/-- A frame whose bytes are all zero holds no bit that is set, inside the buffer or past its end. -/
theorem readBit_replicate_zero (n p : Nat) : readBit (Vector.replicate n 0#8) p = false := by
  rcases Nat.lt_or_ge p (8 * n) with hp | hp
  · rw [readBit_of_lt _ _ hp, Vector.getElem_replicate, BitVec.getLsbD_zero]
  · exact readBit_of_ge _ _ hp

theorem status_withRom (r : Rom) : status (State.withRom r) = 0x00#8 := status_of_not_ill (State.withRom_ill r)

theorem status_resetInput (s : State) : status (resetInput s) = 0x00#8 := status_of_not_ill (State.resetInput_ill s)

/-- Settles O1: the reset input answers `resetInput s`, and power-on is `State.withRom` over Config's ROMs; each leaves
all-zero frames and registers, and the reset input keeps the ROMs. -/
theorem resetClearsEveryRegister : Obligations.ResetClearsEveryRegister := by
  refine ⟨fun s => ⟨resetInput s, rfl, fun p _ => ?inputWire, fun p _ => ?inputParam, State.resetInput_fa s,
      State.resetInput_fb s, State.resetInput_fc s, State.resetInput_pa s, State.resetInput_pb s,
      State.resetInput_mask s, State.resetInput_ill s, status_resetInput s, State.resetInput_rom s⟩,
    fun p _ => ?powerOnWire, fun p _ => ?powerOnParam, State.withRom_fa Config.rom, State.withRom_fb Config.rom,
    State.withRom_fc Config.rom, State.withRom_pa Config.rom, State.withRom_pb Config.rom,
    State.withRom_mask Config.rom, State.withRom_ill Config.rom, status_withRom Config.rom⟩
  case inputWire | powerOnWire => exact readBit_replicate_zero 9 p
  case inputParam | powerOnParam => exact readBit_replicate_zero 7 p

end Sys2Proof.Machine
end

section
/-! The ROM image along steps: no step writes a table, so a well-formed image stays well formed (10_state.md R29). -/

namespace Sys2Proof.Machine

/-- A step takes one access from the list or none, and either keeps the tables (R29; logs 1 and 3). -/
theorem step_rom {s t : State} (h : step s = .next t) : t.rom = s.rom := by
  cases hp : s.pending with
  | nil =>
    rw [step_idle hp] at h
    cases h
    rfl
  | cons a rest =>
    rw [step_access hp] at h
    rw [hostAccess_rom h, State.setPending_rom]

/-- Settles O4: the invariant speaks of the tables alone, and a step keeps them. -/
theorem stepKeepsRomWellFormed : Obligations.StepKeepsRomWellFormed := by
  intro s t hinv h
  rw [State.Inv, step_rom h]
  exact hinv

/-- Settles O3: the tables at reset are Config's, which are well formed whatever the free values are. -/
theorem resetRomIsWellFormed : Obligations.ResetRomIsWellFormed := Config.rom_wellFormed

end Sys2Proof.Machine
end

section
/-! One step is one access, and a command placed before the host's accesses is the next step (20_memory.md R58,
30_encoding.md R80; logs 1 and 3). -/

namespace Sys2Proof.Machine

/-- Settles O8: `step` with an empty list, and with an access at its head. -/
theorem stepPerformsTheNextAccess : Obligations.StepPerformsTheNextAccess :=
  fun _ => ⟨step_idle, fun _ _ => step_access⟩

/-- A step over the write of a byte that decodes is that byte's command, in the state without the write (R80). -/
theorem step_of_command {s : State} {v : Byte} {i : Instr} {rest : List HostAccess}
    (hp : s.pending = .write 0x2C#8 [v] :: rest) (hv : decode v = .ok i) : step s = exec i (s.setPending rest) :=
  (step_access hp).trans (hostAccess_write_cmd_of_decode _ hv)

/-- The encoding of a command decodes to it (R82). -/
theorem decode_encode (i : Instr) : decode (encode i) = .ok i := by
  cases i <;> rfl

/-- Settles O9: a command byte at the head of the list is performed by the step, and `withFetchWord` puts one there
and takes nothing away. -/
theorem stepRunsDecodedCommand : Obligations.StepRunsDecodedCommand := by
  refine ⟨fun s v i rest hp hv _ => step_of_command hp hv, fun s i => ?_⟩
  have hbyte : decode (BitVec.ofNat 8 (encode i).toNat) = .ok i := by
    rw [BitVec.ofNat_toNat, BitVec.setWidth_eq, decode_encode]
  exact step_of_command (s := s.withFetchWord 8 (encode i).toNat) (State.setPending_pending s _) hbyte

/-- A table word of the width of a byte, and in a byte's range, is read as that byte (R85). -/
theorem decodeTableWord_toNat {v : Byte} {i : Instr} (h : decode v = .ok i) : decodeTableWord 8 v.toNat = some i := by
  rw [decodeTableWord, if_pos ⟨rfl, v.isLt⟩, BitVec.ofNat_toNat, BitVec.setWidth_eq, h]

/-- Settles O13: the decoder's row is the encoder's and the reverse, and only words of one byte are read. -/
theorem decodeInvertsEncode : Obligations.DecodeInvertsEncode := by
  refine ⟨fun v i => ⟨eq_encode_of_decode, ?decodes⟩, fun i => ⟨?wellFormed, decodeTableWord_toNat (decode_encode i)⟩,
    fun nbits w h => if_neg (by omega)⟩
  case decodes =>
    rintro rfl
    exact decode_encode i
  case wellFormed => cases i <;> trivial

/-- Settles O25: the lists and counts of the other widths are none, and two or more. -/
theorem wideAccessIsRefused : Obligations.WideAccessIsRefused := by
  refine fun s off => ⟨fun n hn => ?read, fun data hdata => ?write⟩
  case read =>
    match n with
    | 0 | _ + 2 => rfl
    | 1 => exact absurd rfl hn
  case write =>
    match data with
    | [] | _ :: _ :: _ => rfl
    | [_] => exact absurd rfl hdata

/-- Settles O29: an offset is below 256, so the base is all that its address adds (log 9). -/
theorem windowStandsAtAnyBase : Obligations.WindowStandsAtAnyBase := by
  refine ⟨fun off => ?found, fun addr off h => ?only⟩
  case found =>
    have hoff := off.isLt
    rw [Config.hostAddress, Config.offsetAt, if_pos (by omega), Nat.add_sub_cancel_left, BitVec.ofNat_toNat,
      BitVec.setWidth_eq]
  case only =>
    rw [Config.offsetAt] at h
    split at h
    · rename_i hrange
      cases h
      rw [Config.hostAddress, BitVec.toNat_ofNat, Nat.mod_eq_of_lt (by omega)]
      omega
    · cases h

end Sys2Proof.Machine
end

section
/-! Runs of many steps (20_memory.md R58, 60_exceptions.md R214; logs 1 to 3). -/

namespace Sys2Proof.Machine

/-- A run of one step more is the step and the run from there. -/
theorem runs_succ {n : Nat} {s t u : State} (h : step s = .next t) (hrun : Runs n t u) : Runs (n + 1) s u :=
  (run_step h n).trans hrun

/-- Settles O27, by induction on the reads: each takes itself off the list and appends its byte, and the window shows
neither list, so the later reads find what they found before. -/
theorem readsReturnWindowBytesInOrder : Obligations.ReadsReturnWindowBytesInOrder := by
  intro offs
  induction offs with
  | nil =>
    intro s hp
    have hsame : s = { s with pending := [], replies := s.replies ++ [] } :=
      State.eq_of_fields rfl rfl rfl rfl rfl rfl rfl rfl rfl rfl hp (List.append_nil s.replies).symm
    exact congrArg Host.Outcome.next hsame
  | cons off offs ih =>
    intro s hp
    rw [List.map_cons] at hp
    refine runs_succ ((step_access hp).trans (hostAccess_read off _)) ?_
    have hrest := ih ((s.setPending _).setReplies (s.replies ++ [readWindow off s])) rfl
    simp only [readWindow_setReplies, readWindow_setPending, State.setReplies_replies, List.append_assoc] at hrest
    rw [readWindow_setPending]
    exact hrest

/-- With accesses of one byte waiting, or none, a step completes, and takes at most the first of them (R214; logs 1
and 3). -/
theorem step_completes {s : State} (h : s.OnlyByteAccesses) :
    ∃ t, step s = .next t ∧ t.pending = s.pending.tail ∧ t.rom = s.rom := by
  cases hp : s.pending with
  | nil => exact ⟨s, step_idle hp, hp, rfl⟩
  | cons a rest =>
    obtain ⟨t, ht, hrom, hpending⟩ := hostAccess_completes (s.setPending rest) (h a (hp ▸ List.mem_cons_self))
    exact ⟨t, (step_access hp).trans ht, hpending, hrom⟩

/-- Settles O28, by induction on the number of steps: what a step leaves waiting was waiting before. -/
theorem runsOverByteAccessesNeverStop : Obligations.RunsOverByteAccessesNeverStop := by
  intro n
  induction n with
  | zero => exact fun s _ => ⟨s, rfl, rfl, rfl⟩
  | succ n ih =>
    intro s hs
    obtain ⟨t, hstep, htail, hrom⟩ := step_completes hs
    have ht : t.OnlyByteAccesses := fun a ha => hs a (List.mem_of_mem_tail (htail ▸ ha))
    obtain ⟨u, hrun, hdrop, hrom'⟩ := ih t ht
    exact ⟨u, runs_succ hstep hrun, by rw [hdrop, htail, List.drop_tail], hrom'.trans hrom⟩

end Sys2Proof.Machine
end

section
/-! A byte written to the window, and the registers as the window shows them (20_memory.md R51 to R55). -/

namespace Sys2Proof.Machine

/-- The offset of a slot, the inverse of the byte map (R51, R52). The reserved slot has no offset of its own. -/
def offsetOf (x : Slot) : Byte :=
  match x with
  | .wire k => BitVec.ofNat 8 k.val
  | .param k => BitVec.ofNat 8 (0x10 + k.val)
  | .fa k => BitVec.ofNat 8 (0x1A - k)
  | .fb k => BitVec.ofNat 8 (0x1E - k)
  | .fc k => BitVec.ofNat 8 (0x23 - k)
  | .pa k => BitVec.ofNat 8 (0x25 - k)
  | .pb k => BitVec.ofNat 8 (0x27 - k)
  | .mask k => BitVec.ofNat 8 (0x2A - k)
  | .cmd => 0x2C#8
  | .status => 0x2D#8
  | .reserved => 0xFF#8

theorem offsetOf_slotOf (off : Byte) : slotOf off ≠ .reserved → offsetOf (slotOf off) = off := by
  revert off; decide

/-- Two offsets that are not reserved name different slots (R51). -/
theorem slotOf_ne {off off' : Byte} (hoff : slotOf off ≠ .reserved) (h : off' ≠ off) : slotOf off' ≠ slotOf off :=
  fun e => h (by rw [← offsetOf_slotOf off hoff, ← e, offsetOf_slotOf off' (e ▸ hoff)])

/-- The bits of a byte that a slot's register has (R51, R54): none where a write is ignored. -/
def slotMask (x : Slot) : Byte :=
  match x with
  | .wire _ => 0xFF#8
  | .param _ => 0xFF#8
  | .fa k => (BitVec.allOnes (24 - 8 * k)).setWidth 8
  | .fb k => (BitVec.allOnes (23 - 8 * k)).setWidth 8
  | .fc k => (BitVec.allOnes (25 - 8 * k)).setWidth 8
  | .pa k => (BitVec.allOnes (12 - 8 * k)).setWidth 8
  | .pb k => (BitVec.allOnes (12 - 8 * k)).setWidth 8
  | .mask k => (BitVec.allOnes (23 - 8 * k)).setWidth 8
  | .cmd => 0x00#8
  | .status => 0x00#8
  | .reserved => 0x00#8

/-- A slot that is written reads the bits its register has (R51, R54). -/
theorem readSlot_writeSlot_same {x : Slot} (v : Byte) (s : State) (hx : x ≠ .status) :
    readSlot x (writeSlot x v s) = v &&& slotMask x := by
  cases x with
  | wire k | param k => exact (Vector.getElem_set_self k.isLt).trans BitVec.and_allOnes.symm
  | fa k => exact getByte_putByte s.fa k v (by decide)
  | fb k => exact getByte_putByte s.fb k v (by decide)
  | fc k => exact getByte_putByte s.fc k v (by decide)
  | pa k => exact getByte_putByte s.pa k v (by decide)
  | pb k => exact getByte_putByte s.pb k v (by decide)
  | mask k => exact getByte_putByte s.mask k v (by decide)
  | cmd | reserved => exact BitVec.and_zero.symm
  | status => exact absurd rfl hx

/-- The other slots read as before: the other bytes of the register, and the other registers (R51). -/
theorem readSlot_writeSlot_ne {x y : Slot} (v : Byte) (s : State) (h : y ≠ x) :
    readSlot y (writeSlot x v s) = readSlot y s := by
  cases x with
  | wire k =>
    cases y with
    | wire l => exact Vector.getElem_set_ne k.isLt l.isLt fun e => h (congrArg Slot.wire (Fin.ext e.symm))
    | _ => rfl
  | param k =>
    cases y with
    | param l => exact Vector.getElem_set_ne k.isLt l.isLt fun e => h (congrArg Slot.param (Fin.ext e.symm))
    | _ => rfl
  | fa k =>
    cases y with
    | fa l => exact getByte_putByte_ne s.fa v (by decide) fun e => h (congrArg Slot.fa e)
    | _ => rfl
  | fb k =>
    cases y with
    | fb l => exact getByte_putByte_ne s.fb v (by decide) fun e => h (congrArg Slot.fb e)
    | _ => rfl
  | fc k =>
    cases y with
    | fc l => exact getByte_putByte_ne s.fc v (by decide) fun e => h (congrArg Slot.fc e)
    | _ => rfl
  | pa k =>
    cases y with
    | pa l => exact getByte_putByte_ne s.pa v (by decide) fun e => h (congrArg Slot.pa e)
    | _ => rfl
  | pb k =>
    cases y with
    | pb l => exact getByte_putByte_ne s.pb v (by decide) fun e => h (congrArg Slot.pb e)
    | _ => rfl
  | mask k =>
    cases y with
    | mask l => exact getByte_putByte_ne s.mask v (by decide) fun e => h (congrArg Slot.mask e)
    | _ => rfl
  | cmd | status | reserved => rfl

/-- A window write leaves every other offset as it reads, a write to a reserved offset leaves all (R51, R55). -/
theorem readWindow_writeWindow_ne {off off' : Byte} (v : Byte) (s : State) (h : off' ≠ off) :
    readWindow off' (writeWindow off v s) = readWindow off' s := by
  by_cases hoff : slotOf off = .reserved
  · rw [writeWindow, hoff, writeSlot]
  · exact readSlot_writeSlot_ne v s (slotOf_ne hoff h)

/-- STATUS is the one offset that names the STATUS slot (R51). -/
theorem slotOf_eq_status (off : Byte) : slotOf off = .status ↔ off = 0x2D#8 := by
  refine ⟨fun h => ?_, fun h => h ▸ rfl⟩
  rw [← offsetOf_slotOf off (by rw [h]; nofun), h, offsetOf]

/-- The bits of each row of R51, by its offsets. -/
theorem slotMask_slotOf (off : Byte) :
    slotMask (slotOf off) =
      if off.toNat ≤ 0x08 then 0xFF#8
      else if 0x10 ≤ off.toNat ∧ off.toNat ≤ 0x16 then 0xFF#8
      else if 0x18 ≤ off.toNat ∧ off.toNat ≤ 0x1A then 0xFF#8
      else if off = 0x1C#8 ∨ off = 0x28#8 then 0x7F#8
      else if off = 0x1D#8 ∨ off = 0x1E#8 ∨ off = 0x29#8 ∨ off = 0x2A#8 then 0xFF#8
      else if off = 0x20#8 then 0x01#8
      else if 0x21 ≤ off.toNat ∧ off.toNat ≤ 0x23 then 0xFF#8
      else if off = 0x24#8 ∨ off = 0x26#8 then 0x0F#8
      else if off = 0x25#8 ∨ off = 0x27#8 then 0xFF#8
      else 0x00#8 := by
  revert off; decide

/-- Settles O18: what the written slot and the others read, and the table's masks by going through the offsets. -/
theorem writtenByteReadsBack : Obligations.WrittenByteReadsBack := by
  intro s off v hcmd hstatus
  refine ⟨writeWindow off v s, hostAccess_write_data hcmd rfl, ?_, fun off' => readWindow_writeWindow_ne v s⟩
  rw [← slotMask_slotOf]
  exact readSlot_writeSlot_same v s fun h => hstatus ((slotOf_eq_status off).mp h)

/-- A register is its bytes (R52). -/
theorem eq_of_getByte {w : Nat} {x y : BitVec w} (n : Nat) (h : ∀ k < n, getByte x k = getByte y k)
    (hw : w ≤ 8 * n := by decide) : x = y := by
  refine BitVec.eq_of_getLsbD_eq fun j hj => ?_
  have hbit : ∀ z : BitVec w, (getByte z (j / 8)).getLsbD (j % 8) = z.getLsbD j := fun z => by
    rw [getLsbD_getByte, Nat.div_add_mod, decide_eq_true (Nat.mod_lt j (by decide)), Bool.true_and]
  rw [← hbit x, ← hbit y, h (j / 8) (by omega)]

/-- What a slot reads is a function of the nine registers (R51). -/
theorem readSlot_congr {s t : State} (x : Slot) (wire : s.wire = t.wire) (param : s.param = t.param)
    (fa : s.fa = t.fa) (fb : s.fb = t.fb) (fc : s.fc = t.fc) (pa : s.pa = t.pa) (pb : s.pb = t.pb)
    (mask : s.mask = t.mask) (ill : s.ill = t.ill) : readSlot x s = readSlot x t := by
  cases x with
  | wire k => rw [readSlot, readSlot, wire]
  | param k => rw [readSlot, readSlot, param]
  | fa k => rw [readSlot, readSlot, fa]
  | fb k => rw [readSlot, readSlot, fb]
  | fc k => rw [readSlot, readSlot, fc]
  | pa k => rw [readSlot, readSlot, pa]
  | pb k => rw [readSlot, readSlot, pb]
  | mask k => rw [readSlot, readSlot, mask]
  | status => rw [readSlot, readSlot, status, status, ill]
  | cmd | reserved => rfl

/-- STATUS shows ILL (R27). -/
theorem ill_eq_getLsbD_status (s : State) : s.ill = (status s).getLsbD 0 := by
  rw [status]
  cases s.ill <;> rfl

/-- Settles O26: every byte of a register has its offset, a register is its bytes, and the window shows no more. -/
theorem windowShowsExactlyTheRegisters : Obligations.WindowShowsExactlyTheRegisters := by
  intro s t
  constructor
  · intro h
    have hslot : ∀ x, slotOf (offsetOf x) = x → readSlot x s = readSlot x t := fun x hx => by
      have hx' := h (offsetOf x)
      rwa [readWindow, readWindow, hx] at hx'
    refine ⟨Vector.ext fun k hk => hslot (.wire ⟨k, hk⟩) (slotOf_wire ⟨k, hk⟩),
      Vector.ext fun k hk => hslot (.param ⟨k, hk⟩) (slotOf_param ⟨k, hk⟩),
      eq_of_getByte 3 fun k hk => hslot (.fa k) ?_, eq_of_getByte 3 fun k hk => hslot (.fb k) ?_,
      eq_of_getByte 4 fun k hk => hslot (.fc k) ?_, eq_of_getByte 2 fun k hk => hslot (.pa k) ?_,
      eq_of_getByte 2 fun k hk => hslot (.pb k) ?_, eq_of_getByte 3 fun k hk => hslot (.mask k) ?_, ?ill⟩
    case ill =>
      have hstatus : status s = status t := hslot .status rfl
      rw [ill_eq_getLsbD_status s, hstatus, ← ill_eq_getLsbD_status t]
    all_goals
      revert k
      decide
  · rintro ⟨wire, param, fa, fb, fc, pa, pb, mask, ill⟩ off
    exact readSlot_congr (slotOf off) wire param fa fb fc pa pb mask ill

end Sys2Proof.Machine
end

section
/-! Well-formed images are the ones Config builds (10_state.md R30 to R34; log 4). -/

namespace Sys2Proof

/-- Two images with the same tables are one image. -/
theorem Rom.eq_of_tables {r r' : Rom} (permA : r.permA = r'.permA) (permB : r.permB = r'.permB)
    (permC : r.permC = r'.permC) (golay24 : r.golay24 = r'.golay24) (golay23 : r.golay23 = r'.golay23)
    (prng : r.prng = r'.prng) : r = r' := by
  cases r; cases r'; simp_all

/-- Seventy-two distinct positions in 0..71 are a permutation of them (R33). -/
theorem Rom.WellFormed.exists_order {r : Rom} (h : r.WellFormed) :
    ∃ order : Equiv.Perm WirePos,
      ∀ i : Fin 72, order i = r.positions[i.val]'(by rw [r.length_positions]; exact i.isLt) := by
  have hinj : Function.Injective fun i : Fin 72 =>
      r.positions[i.val]'(by rw [r.length_positions]; exact i.isLt) :=
    fun i j e => Fin.ext (h.getElem_positions_inj i.isLt j.isLt e)
  exact ⟨Equiv.ofBijective _ (Finite.injective_iff_bijective.mp hinj), fun i => rfl⟩

/-- A word is its high 12 bits over its low 12 bits. -/
theorem romWord_eq_append (w : RomWord) : w = w.extractLsb' 12 12 ++ w.extractLsb' 0 12 := by
  refine BitVec.eq_of_getLsbD_eq fun j hj => ?_
  rw [BitVec.getLsbD_append, BitVec.getLsbD_extractLsb', BitVec.getLsbD_extractLsb']
  by_cases hlow : j < 12
  · simp [hlow]
  · simp [hlow, show j - 12 < 12 by omega, show 12 + (j - 12) = j by omega]

/-- A table is the function that looks its entries up (R66). -/
theorem tabulate_romAt (t : RomTable) : (tabulate fun i => Machine.romAt t (BitVec.ofFin i)) = t :=
  Vector.ext fun i hi => getElem_tabulate _ i hi

/-- An entry of a systematic table is its index over its parity bits (R31, R32). -/
theorem RomTable.Systematic.romAt_eq_append {t : RomTable} (h : t.Systematic) (v : Payload) :
    Machine.romAt t v = v ++ (Machine.romAt t v).extractLsb' 0 12 :=
  (romWord_eq_append _).trans (congrArg (· ++ (Machine.romAt t v).extractLsb' 0 12) (romAt_systematic h v))

theorem RomTable.Systematic.eq_tabulate {t : RomTable} (h : t.Systematic) :
    t = tabulate fun i =>
      (BitVec.ofFin i : Payload) ++ (Machine.romAt t (BitVec.ofFin i)).extractLsb' 0 12 :=
  (tabulate_romAt t).symm.trans (congrArg tabulate (funext fun i => h.romAt_eq_append (BitVec.ofFin i)))

/-- Settles O6: a well-formed image gives back the order of its positions, its parity bits and its PRNG words. -/
theorem freeRomsAreExactlyTheWellFormed : Obligations.FreeRomsAreExactlyTheWellFormed := by
  refine fun r => ⟨fun h => ?_, fun ⟨order, parity24, parity23, prng, e⟩ => e ▸ romOf_wellFormed _ _ _ _⟩
  obtain ⟨order, horder⟩ := h.exists_order
  obtain ⟨-, h24, h23⟩ := id h
  refine ⟨order, fun v => (Machine.romAt r.golay24 v).extractLsb' 0 12,
    fun v => (Machine.romAt r.golay23 v).extractLsb' 0 12, Machine.romAt r.prng,
    Rom.eq_of_tables (Vector.ext fun i hi => ?permA) (Vector.ext fun i hi => ?permB) (Vector.ext fun i hi => ?permC)
      h24.eq_tabulate h23.eq_tabulate (tabulate_romAt r.prng).symm⟩
  case permA =>
    rw [getElem_romOf_permA _ _ _ _ i hi, horder]
    exact (r.getElem_positions_A ⟨i, hi⟩).symm
  case permB =>
    rw [getElem_romOf_permB _ _ _ _ i hi, horder]
    exact (r.getElem_positions_B ⟨i, hi⟩).symm
  case permC =>
    rw [getElem_romOf_permC _ _ _ _ i hi, horder]
    exact (r.getElem_positions_C ⟨i, hi⟩).symm

end Sys2Proof
end

section
/-! The check of a proposed parameter set (93_implementation_defined.md U10). -/

namespace Sys2Proof

/-- One test of the check: passed, and no defect after it. -/
theorem ite_some_eq_none {α : Type} {p : Prop} [Decidable p] {d : α} {rest : Option α} :
    (if ¬ p then some d else rest) = none ↔ p ∧ rest = none := by
  by_cases hp : p <;> simp [hp]

/-- The index test goes along the list (R31, R32). -/
theorem systematicFrom_iff (l : List Nat) (k : Nat) :
    systematicFrom k l = true ↔ ∀ v < l.length, l.getD v 0 / 4096 = k + v := by
  induction l generalizing k with
  | nil => simp [systematicFrom]
  | cons e l ih =>
    rw [systematicFrom, Bool.and_eq_true, beq_iff_eq, ih, List.length_cons, Nat.forall_lt_succ_left]
    refine and_congr (by simp) (forall₂_congr fun v _ => ?_)
    rw [List.getD_cons_succ, Nat.add_assoc, Nat.add_comm 1 v]

/-- Along a whole table it finds every index (R31, R32). -/
theorem systematicFrom_zero_iff {l : List Nat} (hlen : l.length = 4096) :
    systematicFrom 0 l = true ↔ ∀ v < 4096, l.getD v 0 / 2 ^ 12 = v := by
  rw [systematicFrom_iff, hlen]
  simp only [Nat.zero_add, Nat.reducePow]

/-- No defect is what every test passed means. -/
theorem RomImage.defect_eq_none_iff (m : RomImage) :
    m.defect = none ↔
      (m.permA.length = 24 ∧ m.permB.length = 23 ∧ m.permC.length = 25) ∧
      (∀ p ∈ m.permA ++ m.permB ++ m.permC, p < 72) ∧ (m.permA ++ m.permB ++ m.permC).Nodup ∧
      (m.golay24.length = 4096 ∧ m.golay23.length = 4096 ∧ m.prng.length = 4096) ∧
      (∀ e ∈ m.golay24 ++ m.golay23 ++ m.prng, e < 2 ^ 24) ∧
      systematicFrom 0 m.golay24 = true ∧ systematicFrom 0 m.golay23 = true := by
  simp only [RomImage.defect, ite_some_eq_none, and_true]

/-- The tables that an image without defect is loaded as. -/
def RomImage.tables (m : RomImage) : Rom where
  permA := permOfList 24 m.permA
  permB := permOfList 23 m.permB
  permC := permOfList 25 m.permC
  golay24 := tableOfList m.golay24
  golay23 := tableOfList m.golay23
  prng := tableOfList m.prng

theorem RomImage.load_eq_ok_iff (m : RomImage) (r : Rom) : m.load = .ok r ↔ m.defect = none ∧ m.tables = r := by
  rw [RomImage.load, RomImage.tables]
  cases m.defect <;> simp

theorem getElem_permOfList (n : Nat) (l : List Nat) (i : Nat) (hi : i < n) :
    (permOfList n l)[i] = Fin.ofNat 72 (l.getD i 0) := getElem_tabulate _ i hi

theorem getElem_tableOfList (l : List Nat) (i : Nat) (hi : i < 4096) :
    (tableOfList l)[i] = BitVec.ofNat 24 (l.getD i 0) := getElem_tabulate _ i hi

/-- A permutation that passed the check holds its numbers (R30). -/
theorem map_val_permOfList {n : Nat} {l : List Nat} (hlen : l.length = n) (h : ∀ p ∈ l, p < 72) :
    (permOfList n l).toList.map Fin.val = l := by
  refine List.ext_getElem (by simp [hlen]) fun i hi hi' => ?_
  have hget : l.getD i 0 = l[i] := List.getD_eq_getElem l 0 hi'
  rw [List.getElem_map, Vector.getElem_toList, getElem_permOfList, hget]
  exact Nat.mod_eq_of_lt (h _ (List.getElem_mem hi'))

/-- A lookup table that passed the check holds its numbers (R6). -/
theorem map_toNat_tableOfList {l : List Nat} (hlen : l.length = 4096) (h : ∀ e ∈ l, e < 2 ^ 24) :
    (tableOfList l).toList.map BitVec.toNat = l := by
  refine List.ext_getElem (by simp [hlen]) fun i hi hi' => ?_
  have hget : l.getD i 0 = l[i] := List.getD_eq_getElem l 0 hi'
  rw [List.getElem_map, Vector.getElem_toList, getElem_tableOfList, hget, BitVec.toNat_ofNat]
  exact Nat.mod_eq_of_lt (h _ (List.getElem_mem hi'))

/-- A table whose numbers carry their indices is systematic (R31, R32). -/
theorem systematic_tableOfList {l : List Nat} (hlen : l.length = 4096) (h : ∀ e ∈ l, e < 2 ^ 24)
    (hsys : systematicFrom 0 l = true) : (tableOfList l).Systematic := by
  intro v
  have hv : v.val < l.length := lt_of_lt_of_eq v.isLt hlen.symm
  have hfits : l.getD v.val 0 < 2 ^ 24 := by
    rw [List.getD_eq_getElem l 0 hv]
    exact h _ (List.getElem_mem hv)
  have hindex := (systematicFrom_zero_iff hlen).mp hsys v.val v.isLt
  refine BitVec.eq_of_toNat_eq ?_
  rw [Machine.toNat_extractLsb'_top _ 12 12, Fin.getElem_fin, getElem_tableOfList, BitVec.toNat_ofNat,
    Nat.mod_eq_of_lt hfits, BitVec.toNat_ofNat, hindex, Nat.mod_eq_of_lt v.isLt]

/-- Settles O7: the tests in order are the constraints, and numbers in range are loaded as they are. -/
theorem illFormedImagesAreRefused : Obligations.IllFormedImagesAreRefused := by
  intro m
  simp only [RomImage.load_eq_ok_iff]
  refine ⟨?accepted, ?loaded⟩
  case accepted =>
    rw [exists_and_left, and_iff_left (exists_eq' (a' := m.tables)), RomImage.defect_eq_none_iff]
    constructor
    · rintro ⟨⟨lenA, lenB, lenC⟩, hrange, hnodup, ⟨len24, len23, lenPrng⟩, hfits, hsys24, hsys23⟩
      exact ⟨lenA, lenB, lenC, hrange, hnodup, len24, len23, lenPrng, hfits, (systematicFrom_zero_iff len24).mp hsys24,
        (systematicFrom_zero_iff len23).mp hsys23⟩
    · rintro ⟨lenA, lenB, lenC, hrange, hnodup, len24, len23, lenPrng, hfits, hindex24, hindex23⟩
      exact ⟨⟨lenA, lenB, lenC⟩, hrange, hnodup, ⟨len24, len23, lenPrng⟩, hfits,
        (systematicFrom_zero_iff len24).mpr hindex24, (systematicFrom_zero_iff len23).mpr hindex23⟩
  case loaded =>
    rintro r ⟨hdefect, rfl⟩
    obtain ⟨⟨lenA, lenB, lenC⟩, hrange, hnodup, ⟨len24, len23, lenPrng⟩, hfits, hsys24, hsys23⟩ :=
      m.defect_eq_none_iff.mp hdefect
    simp only [List.forall_mem_append] at hrange hfits
    obtain ⟨⟨rangeA, rangeB⟩, rangeC⟩ := hrange
    obtain ⟨⟨fits24, fits23⟩, fitsPrng⟩ := hfits
    have hA : m.tables.permA.toList.map Fin.val = m.permA := map_val_permOfList lenA rangeA
    have hB : m.tables.permB.toList.map Fin.val = m.permB := map_val_permOfList lenB rangeB
    have hC : m.tables.permC.toList.map Fin.val = m.permC := map_val_permOfList lenC rangeC
    refine ⟨⟨?nodup, systematic_tableOfList len24 fits24 hsys24, systematic_tableOfList len23 fits23 hsys23⟩, hA, hB,
      hC, map_toNat_tableOfList len24 fits24, map_toNat_tableOfList len23 fits23,
      map_toNat_tableOfList lenPrng fitsPrng⟩
    rw [← hA, ← hB, ← hC, ← List.map_append, ← List.map_append] at hnodup
    exact hnodup.of_map

end Sys2Proof
end

section
/-! What a command may touch, as the host sees it (20_memory.md R51, 44_frame_transform.md R170 to R176). -/

namespace Sys2Proof.Machine

/-- The register a slot's byte belongs to, named by the slot of its byte 0. -/
def Slot.register (x : Slot) : Slot :=
  match x with
  | .wire _ => .wire 0
  | .param _ => .param 0
  | .fa _ => .fa 0
  | .fb _ => .fb 0
  | .fc _ => .fc 0
  | .pa _ => .pa 0
  | .pb _ => .pb 0
  | .mask _ => .mask 0
  | .cmd => .cmd
  | .status => .status
  | .reserved => .reserved

/-! A register written is read in the slots of that register alone. -/

theorem readSlot_setWire {x : Slot} (s : State) (v : WireFrame) (h : x.register ≠ .wire 0) :
    readSlot x (s.setWire v) = readSlot x s := by
  cases x with
  | wire => exact absurd rfl h
  | _ => rfl

theorem readSlot_setParam {x : Slot} (s : State) (v : ParamFrame) (h : x.register ≠ .param 0) :
    readSlot x (s.setParam v) = readSlot x s := by
  cases x with
  | param => exact absurd rfl h
  | _ => rfl

theorem readSlot_setFA {x : Slot} (s : State) (v : BitVec 24) (h : x.register ≠ .fa 0) :
    readSlot x (s.setFA v) = readSlot x s := by
  cases x with
  | fa => exact absurd rfl h
  | _ => rfl

theorem readSlot_setFB {x : Slot} (s : State) (v : BitVec 23) (h : x.register ≠ .fb 0) :
    readSlot x (s.setFB v) = readSlot x s := by
  cases x with
  | fb => exact absurd rfl h
  | _ => rfl

theorem readSlot_setFC {x : Slot} (s : State) (v : BitVec 25) (h : x.register ≠ .fc 0) :
    readSlot x (s.setFC v) = readSlot x s := by
  cases x with
  | fc => exact absurd rfl h
  | _ => rfl

theorem readSlot_setPA {x : Slot} (s : State) (v : Payload) (h : x.register ≠ .pa 0) :
    readSlot x (s.setPA v) = readSlot x s := by
  cases x with
  | pa => exact absurd rfl h
  | _ => rfl

theorem readSlot_setPB {x : Slot} (s : State) (v : Payload) (h : x.register ≠ .pb 0) :
    readSlot x (s.setPB v) = readSlot x s := by
  cases x with
  | pb => exact absurd rfl h
  | _ => rfl

theorem readSlot_setMask {x : Slot} (s : State) (v : BitVec 23) (h : x.register ≠ .mask 0) :
    readSlot x (s.setMask v) = readSlot x s := by
  cases x with
  | mask => exact absurd rfl h
  | _ => rfl

theorem readSlot_setIll {x : Slot} (s : State) (v : Bool) (h : x ≠ .status) :
    readSlot x (s.setIll v) = readSlot x s := by
  cases x with
  | status => exact absurd rfl h
  | _ => rfl

/-- The registers a component command's rule writes, STATUS apart; a composite writes what its components write. -/
def writtenRegisters (i : Instr) : List Slot :=
  match i with
  | .nop | .decode | .encode => []
  | .gatherA | .golay24Enc => [.fa 0]
  | .gatherB | .golay23Enc | .scrambleB => [.fb 0]
  | .gatherC => [.fc 0]
  | .scatterA | .scatterB | .scatterC => [.wire 0]
  | .extractA => [.pa 0]
  | .extractB => [.pb 0]
  | .prngMask => [.mask 0]
  | .unpackParam => [.pa 0, .pb 0, .fc 0]
  | .packParam => [.param 0]

/-- The bytes of those registers stand at the offsets the statements name. -/
theorem mem_destinationOffsets_of_written (i : Instr) (off : Byte) :
    (slotOf off).register ∈ writtenRegisters i → off.toNat ∈ destinationOffsets i := by
  cases i <;> revert off <;> decide

/-- A component command leaves the bytes of the other registers. -/
theorem readSlot_effect_of_component {i : Instr} {x : Slot} (hi : i ≠ .decode ∧ i ≠ .encode) (s : State)
    (h : x.register ∉ writtenRegisters i) : readSlot x (effect i s) = readSlot x s := by
  cases i with
  | nop => rfl
  | decode => exact absurd rfl hi.1
  | encode => exact absurd rfl hi.2
  | gatherA | golay24Enc => exact readSlot_setFA s _ (List.ne_of_not_mem_cons h)
  | gatherB | golay23Enc | scrambleB => exact readSlot_setFB s _ (List.ne_of_not_mem_cons h)
  | gatherC => exact readSlot_setFC s _ (List.ne_of_not_mem_cons h)
  | scatterA | scatterB | scatterC => exact readSlot_setWire s _ (List.ne_of_not_mem_cons h)
  | extractA => exact readSlot_setPA s _ (List.ne_of_not_mem_cons h)
  | extractB => exact readSlot_setPB s _ (List.ne_of_not_mem_cons h)
  | prngMask => exact readSlot_setMask s _ (List.ne_of_not_mem_cons h)
  | packParam => exact readSlot_setParam s _ (List.ne_of_not_mem_cons h)
  | unpackParam =>
    simp only [writtenRegisters, List.mem_cons, List.not_mem_nil, or_false, not_or] at h
    obtain ⟨hpa, hpb, hfc⟩ := h
    exact (readSlot_setFC _ _ hfc).trans ((readSlot_setPB _ _ hpb).trans (readSlot_setPA s _ hpa))

/-- So do components one after the other, as the host sees it: each writes at its destination offsets alone. -/
theorem readWindow_effects_of_components {l : List Instr} (hl : ∀ i ∈ l, i ≠ .decode ∧ i ≠ .encode) {off : Byte}
    (s : State) (h : ∀ i ∈ l, off.toNat ∉ destinationOffsets i) : readWindow off (effects l s) = readWindow off s := by
  induction l generalizing s with
  | nil => rfl
  | cons i l ih =>
    obtain ⟨hi, hl⟩ := List.forall_mem_cons.mp hl
    obtain ⟨hoff, h⟩ := List.forall_mem_cons.mp h
    rw [effects_cons, ih hl (effect i s) h]
    exact readSlot_effect_of_component hi s (mt (mem_destinationOffsets_of_written i off) hoff)

/-- A composite's destinations hold those of each of its components (R174, R176). -/
theorem readWindow_effect {i : Instr} {off : Byte} (s : State) (h : off.toNat ∉ destinationOffsets i) :
    readWindow off (effect i s) = readWindow off s := by
  by_cases hdec : i = .decode
  · subst hdec
    have hsub : ∀ j ∈ [Instr.gatherA, .extractA, .gatherB, .prngMask, .scrambleB, .extractB, .gatherC, .packParam],
        destinationOffsets j ⊆ destinationOffsets .decode := by decide
    rw [effect, decodeFrame_eq_effects]
    exact readWindow_effects_of_components (by decide) s fun j hj hoff => h (hsub j hj hoff)
  by_cases henc : i = .encode
  · subst henc
    have hsub : ∀ j ∈ [Instr.unpackParam, .golay24Enc, .prngMask, .golay23Enc, .scrambleB, .scatterA, .scatterB,
        .scatterC], destinationOffsets j ⊆ destinationOffsets .encode := by decide
    rw [effect, encodeFrame_eq_effects]
    exact readWindow_effects_of_components (by decide) s fun j hj hoff => h (hsub j hj hoff)
  exact readWindow_effects_of_components (l := [i]) (by simpa using ⟨hdec, henc⟩) s (by simpa using h)

/-- Settles O43: a command is its effect and the clear of ILL, which STATUS alone shows. -/
theorem commandsChangeOnlyTheirDestinations : Obligations.CommandsChangeOnlyTheirDestinations := by
  intro i s
  have hexec := exec_eq_complete_effect i s
  obtain ⟨-, hrom, hpending, hreplies⟩ := exec_keeps hexec
  refine ⟨_, hexec, hrom, hpending, hreplies, fun off hstatus hoff => ?_⟩
  calc readWindow off ((effect i s).setIll false)
    _ = readWindow off (effect i s) := readSlot_setIll _ false fun h => hstatus ((slotOf_eq_status off).mp h)
    _ = readWindow off s := readWindow_effect s hoff

end Sys2Proof.Machine
end

section
/-! No command reads or writes the padding of PARAM (10_state.md R23, 44_frame_transform.md R170; decision D15). -/

namespace Sys2Proof.Machine

/-- `u` is `s` with another PARAM, whose positions 0..48 are those of `s`. -/
def SameButPadding (s u : State) : Prop :=
  ∃ f : ParamFrame, u = s.setParam f ∧ ∀ q < 49, readBit f q = readBit s.param q

/-- UNPACK_PARAM reads positions 0..48 alone (R171). -/
theorem unpackFields_setParam {s : State} {f : ParamFrame} (h : ∀ q < 49, readBit f q = readBit s.param q) :
    unpackFields (s.setParam f) = (unpackFields s).setParam f := by
  have hpa : paramField 0 12 f = paramField 0 12 s.param := paramField_congr _ _ fun q _ _ => h q (by omega)
  have hpb : paramField 12 12 f = paramField 12 12 s.param := paramField_congr _ _ fun q _ _ => h q (by omega)
  have hfc : paramField 24 25 f = paramField 24 25 s.param := paramField_congr _ _ fun q _ _ => h q (by omega)
  rw [unpackFields, State.setParam_param, hpa, hpb, hfc]
  rfl

theorem setParam_setParam (s : State) (f g : ParamFrame) : (s.setParam f).setParam g = s.setParam g := rfl

/-- PACK_PARAM leaves the other registers, and they do not come from PARAM. -/
theorem packFields_setParam (s : State) (f : ParamFrame) :
    packFields (s.setParam f) = (packFields s).setParam (packFields (s.setParam f)).param := by
  simp only [packFields, State.setParam_param, setParam_setParam]

/-- PACK_PARAM writes all of positions 0..48, from registers alone (R172). -/
theorem readBit_packFields_setParam (s : State) (f : ParamFrame) (q : Nat) (hq : q < 49) :
    readBit (packFields (s.setParam f)).param q = readBit (packFields s).param q := by
  simp only [readBit_packFields, State.setParam_fc, State.setParam_pb, State.setParam_pa]
  split
  · rfl
  · split
    · rfl
    · rw [if_pos (by omega), if_pos (by omega)]

/-- The other components read no PARAM. -/
theorem effect_setParam {i : Instr} (hi : i ∉ [Instr.decode, .encode, .unpackParam, .packParam]) (s : State)
    (f : ParamFrame) : effect i (s.setParam f) = (effect i s).setParam f := by
  cases i
  case decode | encode | unpackParam | packParam => exact absurd (by decide) hi
  all_goals rfl

/-- No component but PACK_PARAM writes PARAM. -/
theorem effect_param {i : Instr} (hi : i ∉ [Instr.decode, .encode, .packParam]) (s : State) :
    (effect i s).param = s.param := by
  cases i
  case decode | encode | packParam => exact absurd (by decide) hi
  case scatterA | scatterB | scatterC => exact param_scatter _ _ s
  all_goals rfl

/-- A component makes no difference of PARAM's padding: it reads none of it, and none reaches a register. -/
theorem effect_sameButPadding_of_component {i : Instr} (hi : i ≠ .decode ∧ i ≠ .encode) {s u : State}
    (h : SameButPadding s u) : SameButPadding (effect i s) (effect i u) := by
  obtain ⟨f, rfl, hbits⟩ := h
  by_cases hunpack : i = .unpackParam
  · subst hunpack
    exact ⟨f, unpackFields_setParam hbits, hbits⟩
  by_cases hpack : i = .packParam
  · subst hpack
    exact ⟨_, packFields_setParam s f, readBit_packFields_setParam s f⟩
  exact ⟨f, effect_setParam (by simp [hi, hunpack, hpack]) s f, by rwa [effect_param (by simp [hi, hpack])]⟩

/-- PACK_PARAM keeps the padding, and no other component writes PARAM (R170, R172). -/
theorem readBit_effect_padding_of_component {i : Instr} (hi : i ≠ .decode ∧ i ≠ .encode) (s : State) {q : Nat}
    (hq : 49 ≤ q) : readBit (effect i s).param q = readBit s.param q := by
  by_cases hpack : i = .packParam
  · subst hpack
    exact readBit_packFields_padding s q hq
  · rw [effect_param (by simp [hi, hpack])]

/-- Components one after the other do the same. -/
theorem effects_ignore_padding {l : List Instr} (hl : ∀ i ∈ l, i ≠ .decode ∧ i ≠ .encode) (s : State) :
    (∀ q, 49 ≤ q → readBit (effects l s).param q = readBit s.param q) ∧
      ∀ u, SameButPadding s u → SameButPadding (effects l s) (effects l u) := by
  induction l generalizing s with
  | nil => exact ⟨fun _ _ => rfl, fun _ h => h⟩
  | cons i l ih =>
    obtain ⟨hi, hl⟩ := List.forall_mem_cons.mp hl
    obtain ⟨hkeeps, hsame⟩ := ih hl (effect i s)
    exact ⟨fun q hq => (hkeeps q hq).trans (readBit_effect_padding_of_component hi s hq),
      fun u h => hsame (effect i u) (effect_sameButPadding_of_component hi h)⟩

/-- And so do the composites, being made of components. -/
theorem effect_ignores_padding (i : Instr) (s : State) :
    (∀ q, 49 ≤ q → readBit (effect i s).param q = readBit s.param q) ∧
      ∀ u, SameButPadding s u → SameButPadding (effect i s) (effect i u) := by
  by_cases hdec : i = .decode
  · subst hdec
    rw [effect, decodeFrame_eq_effects]
    exact effects_ignore_padding (by decide) s
  by_cases henc : i = .encode
  · subst henc
    rw [effect, encodeFrame_eq_effects]
    exact effects_ignore_padding (by decide) s
  exact effects_ignore_padding (l := [i]) (by simpa using ⟨hdec, henc⟩) s

/-- Settles O44: from states that differ in padding alone, a command leaves states that differ in padding alone. -/
theorem commandsIgnorePadding : Obligations.CommandsIgnorePadding := by
  intro i s
  obtain ⟨hkeeps, hsame⟩ := effect_ignores_padding i s
  refine ⟨_, exec_eq_complete_effect i s, fun q hq _ => hkeeps q hq, fun f hf => ?_⟩
  obtain ⟨f', hu, hbits⟩ := hsame (s.setParam f) ⟨f, rfl, hf⟩
  refine ⟨_, exec_eq_complete_effect i (s.setParam f), ?_, fun q hq => ?_⟩
  · rw [hu]
    rfl
  · rw [hu]
    exact hbits q hq

end Sys2Proof.Machine
end

section
/-! What each PARAM position holds after DECODE and each WIRE position after ENCODE (44_frame_transform.md R170, R174,
R176). -/

namespace Sys2Proof.Machine

/-- Logical bit `i` of a payload is logical bit `i` of the field register it is taken from: the payload stands at the
register's top (R121, R122). -/
theorem getMsbD_extractLsb'_top {w : Nat} (x : BitVec w) (p n : Nat) (hw : w = p + n) :
    ∀ i < n, (x.extractLsb' p n).getMsbD i = x.getMsbD i := fun i hi => by
  rw [BitVec.getMsbD_eq_getLsbD, BitVec.getMsbD_eq_getLsbD, getLsbD_extractLsb'_of_lt x p n _ (by omega),
    show p + (n - 1 - i) = w - 1 - i by omega, decide_eq_true hi, decide_eq_true (show i < w by omega)]

/-- The top 23 bits of a word have its bits from the top down (R150). -/
theorem getMsbD_top23 (w : RomWord) (i : Nat) (hi : i < 23) : (top23 w).getMsbD i = w.getLsbD (23 - i) := by
  rw [BitVec.getMsbD_eq_getLsbD, decide_eq_true hi, getLsbD_top23 w _ (by omega), show 1 + (23 - 1 - i) = 23 - i by omega,
    Bool.true_and]

/-! PARAM after DECODE at the positions of PA, PB and FC. -/

theorem readBit_decodeFrame_param_A (s : State) (i : Fin 12) :
    readBit (decodeFrame s).param i.val = (decodeFrame s).pa.getMsbD i.val := by
  rw [readBit_decodeFrame_param, if_neg (by omega), if_neg (by omega), if_pos i.isLt]

theorem readBit_decodeFrame_param_B (s : State) (i : Fin 12) :
    readBit (decodeFrame s).param (12 + i.val) = (decodeFrame s).pb.getMsbD i.val := by
  rw [readBit_decodeFrame_param, if_neg (by omega), if_pos (by omega), Nat.add_sub_cancel_left]

theorem readBit_decodeFrame_param_C (s : State) (i : Fin 25) :
    readBit (decodeFrame s).param (24 + i.val) = readBit s.wire (s.rom.permC[i]).val := by
  rw [readBit_decodeFrame_param, if_pos (by omega), Nat.add_sub_cancel_left, decodeFrame_fc, getMsbD_gather s.rom.permC s i]

/-- Settles O41: the payloads are the tops of the gathered fields, B's with the top of the PRNG entry taken off it. -/
theorem decodedParamBits : Obligations.DecodedParamBits := by
  refine fun s => ⟨_, exec_decode s, fun i => ?fieldA, fun i => ?fieldB, readBit_decodeFrame_param_C s⟩
  case fieldA =>
    calc readBit (decodeFrame s).param i.val
      _ = (decodeFrame s).pa.getMsbD i.val := readBit_decodeFrame_param_A s i
      _ = (gather s.rom.permA s).getMsbD i.val := by
        rw [decodeFrame_pa, decodeFrame_fa, getMsbD_extractLsb'_top _ 12 12 rfl i.val i.isLt]
      _ = readBit s.wire (s.rom.permA[i.val]).val := getMsbD_gather s.rom.permA s ⟨i.val, by omega⟩
  case fieldB =>
    calc readBit (decodeFrame s).param (12 + i.val)
      _ = (decodeFrame s).pb.getMsbD i.val := readBit_decodeFrame_param_B s i
      _ = ((gather s.rom.permB s).getMsbD i.val ^^ (decodeFrame s).mask.getMsbD i.val) := by
        rw [decodeFrame_pb, getMsbD_extractLsb'_top _ 11 12 rfl i.val i.isLt, decodeFrame_fb, BitVec.getMsbD_xor]
      _ = (readBit s.wire (s.rom.permB[i.val]).val ^^ (romAt s.rom.prng (decodeFrame s).pa).getLsbD (23 - i.val)) := by
        rw [decodeFrame_mask, getMsbD_top23 _ _ (by omega)]
        exact congrArg (· ^^ _) (getMsbD_gather s.rom.permB s ⟨i.val, by omega⟩)

/-- WIRE after ENCODE over a well-formed image: both codewords from the top down, B's under the mask, and field C
(R176). -/
theorem readBit_encodeFrame_wire_words (s : State) (h : s.rom.WellFormed) :
    (∀ i : Fin 24, readBit (encodeFrame s).wire (s.rom.permA[i]).val =
      (romAt s.rom.golay24 (encodeFrame s).pa).getLsbD (23 - i.val)) ∧
    (∀ i : Fin 23, readBit (encodeFrame s).wire (s.rom.permB[i]).val =
      ((romAt s.rom.golay23 (encodeFrame s).pb).getLsbD (23 - i.val) ^^
        (romAt s.rom.prng (encodeFrame s).pa).getLsbD (23 - i.val))) ∧
    ∀ i : Fin 25, readBit (encodeFrame s).wire (s.rom.permC[i]).val = readBit s.param (24 + i.val) := by
  obtain ⟨fieldA, fieldB, fieldC⟩ := readBit_encodeFrame_wire s h
  refine ⟨fun i => ?_, fun i => ?_, fun i => ?_⟩
  · rw [fieldA, encodeFrame_fa, ← getLsbD_logical]
  · rw [fieldB, encodeFrame_fb, BitVec.getMsbD_xor, encodeFrame_mask, getMsbD_top23 _ _ i.isLt, getMsbD_top23 _ _ i.isLt]
  · rw [fieldC, encodeFrame_fc, getMsbD_paramField]

/-- Settles O42: the clear of ILL changes no register of the frame. -/
theorem encodedWireBits : Obligations.EncodedWireBits := by
  intro s h
  refine ⟨_, exec_encode s, ?_⟩
  rw [State.setIll_wire, State.setIll_pa, State.setIll_pb]
  exact readBit_encodeFrame_wire_words s h

/-- A field of a PARAM without set bits is zero. -/
theorem paramField_replicate_zero (start n : Nat) : paramField start n (Vector.replicate 7 0#8) = 0#n := by
  refine BitVec.eq_of_getMsbD_eq fun i hi => ?_
  rw [getMsbD_paramField start n _ ⟨i, hi⟩, readBit_replicate_zero, BitVec.getMsbD_zero]

/-- The lookup of the payload zero is a table's first entry. -/
theorem romAt_zero (t : RomTable) : romAt t 0#12 = t[0] := rfl

/-- Settles O57: the frames at reset are all zero, so both payloads of ENCODE and the field C are. -/
theorem transformsStraightAfterReset : Obligations.TransformsStraightAfterReset := by
  intro r
  have hdecode := decodeFrame_of_zero_wire (State.withRom r) fun p _ => readBit_replicate_zero 9 p
  refine ⟨⟨_, exec_decode _, hdecode⟩, fun h => ⟨_, exec_encode _, ?_⟩⟩
  simp only [State.setIll_wire]
  obtain ⟨fieldA, fieldB, fieldC⟩ := readBit_encodeFrame_wire_words (State.withRom r) h
  have hpa : (encodeFrame (State.withRom r)).pa = 0#12 := (encodeFrame_pa _).trans (paramField_replicate_zero 0 12)
  have hpb : (encodeFrame (State.withRom r)).pb = 0#12 := (encodeFrame_pb _).trans (paramField_replicate_zero 12 12)
  rw [hpa, romAt_zero] at fieldA
  rw [hpa, hpb, romAt_zero, romAt_zero] at fieldB
  exact ⟨fieldA, fieldB, fun i => (fieldC i).trans (readBit_replicate_zero 7 _)⟩

/-- Settles O51: field B is the codeword of payload B under the mask of payload A, and the payloads are PARAM's first
24 positions. -/
theorem scramblingIsDeterministic : Obligations.ScramblingIsDeterministic := by
  intro s u hrom hparam
  have hpa : (encodeFrame u).pa = (encodeFrame s).pa := by
    rw [encodeFrame_pa, encodeFrame_pa, paramField_congr 0 12 fun q _ _ => hparam q (by omega)]
  have hpb : (encodeFrame u).pb = (encodeFrame s).pb := by
    rw [encodeFrame_pb, encodeFrame_pb, paramField_congr 12 12 fun q _ _ => hparam q (by omega)]
  have hmask : (encodeFrame u).mask = (encodeFrame s).mask := by rw [encodeFrame_mask, encodeFrame_mask, hrom, hpa]
  have hfb : (encodeFrame u).fb = (encodeFrame s).fb := by rw [encodeFrame_fb, encodeFrame_fb, hrom, hpb, hmask]
  refine ⟨_, _, exec_encode s, exec_encode u, ?_⟩
  rw [State.setIll_fb, State.setIll_fb, State.setIll_mask, State.setIll_mask]
  exact ⟨hfb, hmask⟩

/-- PARAM positions 0..48 after DECODE are its payload registers and FC (R170, R174). -/
theorem readBit_decodeFrame_param_congr {s u : State} (pa : (decodeFrame u).pa = (decodeFrame s).pa)
    (pb : (decodeFrame u).pb = (decodeFrame s).pb) (fc : (decodeFrame u).fc = (decodeFrame s).fc) (q : Nat)
    (hq : q < 49) : readBit (decodeFrame u).param q = readBit (decodeFrame s).param q := by
  rw [readBit_decodeFrame_param, readBit_decodeFrame_param, pa, pb, fc]
  split
  · rfl
  · split
    · rfl
    · rw [if_pos (by omega), if_pos (by omega)]

/-- Clearing ILL in two states keeps which of the field registers agree. -/
theorem setIll_field_registers {s u : State} (fa : u.fa = s.fa) (fb : u.fb = s.fb) (fc : u.fc = s.fc)
    (pa : u.pa = s.pa) (pb : u.pb = s.pb) (mask : u.mask = s.mask) (b : Bool) :
    (u.setIll b).fa = (s.setIll b).fa ∧ (u.setIll b).fb = (s.setIll b).fb ∧ (u.setIll b).fc = (s.setIll b).fc ∧
      (u.setIll b).pa = (s.setIll b).pa ∧ (u.setIll b).pb = (s.setIll b).pb ∧
      (u.setIll b).mask = (s.setIll b).mask := ⟨fa, fb, fc, pa, pb, mask⟩

/-- Settles O56: the registers by their congruence laws, and each written frame by its registers. -/
theorem transformsArePureFunctions : Obligations.TransformsArePureFunctions := by
  refine ⟨fun s u hrom hwire => ⟨_, _, exec_decode s, exec_decode u, ?decode⟩,
    fun s u h hrom hparam => ⟨_, _, exec_encode s, exec_encode u, ?encode⟩⟩
  case decode =>
    obtain ⟨hfa, hpa, hmask, hfb, hpb, hfc⟩ := decodeFrame_congr hrom hwire
    obtain ⟨fa, fb, fc, pa, pb, mask⟩ := setIll_field_registers hfa hfb hfc hpa hpb hmask false
    refine ⟨fa, fb, fc, pa, pb, mask, fun q hq => ?_⟩
    rw [State.setIll_param, State.setIll_param, readBit_decodeFrame_param_congr hpa hpb hfc q hq]
  case encode =>
    obtain ⟨hpa, hpb, hfc, hfa, hmask, hfb⟩ := encodeFrame_congr hrom hparam
    obtain ⟨fa, fb, fc, pa, pb, mask⟩ := setIll_field_registers hfa hfb hfc hpa hpb hmask false
    refine ⟨fa, fb, fc, pa, pb, mask, ?_⟩
    rw [State.setIll_wire, State.setIll_wire, encodeFrame_wire_congr h hrom hparam]

end Sys2Proof.Machine
end

section
/-! Scatters and gathers of the fields over a well-formed ROM image (41_permutation.md R108 to R110). -/

namespace Sys2Proof.Machine

/-- A field scattered to distinct positions is gathered from them again (R108). -/
theorem gather_scatter {n : Nat} (v : BitVec n) (T : Vector WirePos n) (s : State)
    (hT : Function.Injective fun i : Fin n => (T[i]).val) : gather T (scatter v T s) = v :=
  gatherBits_scatterBits v _ s.wire (fun i => (T[i]).isLt) hT

/-- A field gathered and scattered again leaves WIRE (R108). -/
theorem scatter_gather_wire {n : Nat} (T : Vector WirePos n) (s : State)
    (hT : Function.Injective fun i : Fin n => (T[i]).val) : (scatter (gather T s) T s).wire = s.wire :=
  scatterBits_gatherBits _ s.wire (fun i => (T[i]).isLt) hT

/-- A scatter through one table is not seen by a gather through another without a common position (R109). -/
theorem gather_scatter_of_disjoint {n k : Nat} (v : BitVec n) (T : Vector WirePos n) (U : Vector WirePos k) (s : State)
    (h : ∀ (i : Fin n) (j : Fin k), (T[i]).val ≠ (U[j]).val) : gather U (scatter v T s) = gather U s :=
  gatherBits_congr _ fun j => readBit_scatterBits_of_forall_ne v _ s.wire _ fun i => h i j

/-- Two commands in turn leave the second's effect on the first's, completed. -/
theorem runCommands_pair (i j : Instr) (s : State) :
    runCommands [i, j] s = .next ((effect j (effect i s)).setIll false) :=
  runCommands_eq_complete_effects i [j] s

/-- Settles O45: each pair is a scatter and a gather through one table, whose positions are distinct. -/
theorem scatterAndGatherAreInverse : Obligations.ScatterAndGatherAreInverse := fun s h =>
  ⟨⟨_, runCommands_pair .scatterA .gatherA s, gather_scatter s.fa s.rom.permA s h.permA_injective⟩,
    ⟨_, runCommands_pair .scatterB .gatherB s, gather_scatter s.fb s.rom.permB s h.permB_injective⟩,
    ⟨_, runCommands_pair .scatterC .gatherC s, gather_scatter s.fc s.rom.permC s h.permC_injective⟩,
    ⟨_, runCommands_pair .gatherA .scatterA s, scatter_gather_wire s.rom.permA s h.permA_injective⟩,
    ⟨_, runCommands_pair .gatherB .scatterB s, scatter_gather_wire s.rom.permB s h.permB_injective⟩,
    ⟨_, runCommands_pair .gatherC .scatterC s, scatter_gather_wire s.rom.permC s h.permC_injective⟩⟩

/-- Settles O46: each pair is a scatter and a gather through two of the three tables, which share no position. -/
theorem fieldsAreIndependentOnTheWire : Obligations.FieldsAreIndependentOnTheWire := fun s h =>
  ⟨⟨_, _, exec_gatherB s, runCommands_pair .scatterA .gatherB s,
      gather_scatter_of_disjoint s.fa s.rom.permA s.rom.permB s h.permA_ne_permB⟩,
    ⟨_, _, exec_gatherC s, runCommands_pair .scatterA .gatherC s,
      gather_scatter_of_disjoint s.fa s.rom.permA s.rom.permC s h.permA_ne_permC⟩,
    ⟨_, _, exec_gatherA s, runCommands_pair .scatterB .gatherA s,
      gather_scatter_of_disjoint s.fb s.rom.permB s.rom.permA s fun i j => (h.permA_ne_permB j i).symm⟩,
    ⟨_, _, exec_gatherC s, runCommands_pair .scatterB .gatherC s,
      gather_scatter_of_disjoint s.fb s.rom.permB s.rom.permC s h.permB_ne_permC⟩,
    ⟨_, _, exec_gatherA s, runCommands_pair .scatterC .gatherA s,
      gather_scatter_of_disjoint s.fc s.rom.permC s.rom.permA s fun i j => (h.permA_ne_permC j i).symm⟩,
    ⟨_, _, exec_gatherB s, runCommands_pair .scatterC .gatherB s,
      gather_scatter_of_disjoint s.fc s.rom.permC s.rom.permB s fun i j => (h.permB_ne_permC j i).symm⟩⟩

/-- Over a well-formed ROM image a WIRE is what its three fields are gathered as (R33). -/
theorem wire_eq_of_gathers {r : Rom} (h : r.WellFormed) {s u : State} (fieldA : gather r.permA s = gather r.permA u)
    (fieldB : gather r.permB s = gather r.permB u) (fieldC : gather r.permC s = gather r.permC u) :
    s.wire = u.wire := by
  refine wireFrame_ext h (fun i => ?_) (fun i => ?_) (fun i => ?_)
  · rw [← getMsbD_gather r.permA s i, fieldA, getMsbD_gather r.permA u i]
  · rw [← getMsbD_gather r.permB s i, fieldB, getMsbD_gather r.permB u i]
  · rw [← getMsbD_gather r.permC s i, fieldC, getMsbD_gather r.permC u i]

theorem effects_triple (i j k : Instr) (s : State) : effects [i, j, k] s = effect k (effect j (effect i s)) := rfl

/-- After the three scatters, in any order, each field is gathered as its register: its own scatter may be taken as the
last (R108, R109). -/
theorem gather_effects_of_scatters {l : List Instr} (hl : l.Perm scatterCommands) {s : State}
    (h : s.rom.WellFormed) :
    gather s.rom.permA (effects l s) = s.fa ∧ gather s.rom.permB (effects l s) = s.fb ∧
      gather s.rom.permC (effects l s) = s.fc := by
  have horder : ∀ m : List Instr, scatterCommands.Perm m → effects l s = effects m s := fun m hm =>
    effects_perm_of_scatters (hl.trans hm) (fun _ => hl.mem_iff.mp) h
  refine ⟨?_, ?_, ?_⟩
  · rw [horder [.scatterB, .scatterC, .scatterA] (by decide), effects_triple]
    simp only [effect_scatterA, effect_scatterB, effect_scatterC, fa_scatter, fc_scatter, rom_scatter]
    exact gather_scatter s.fa s.rom.permA _ h.permA_injective
  · rw [horder [.scatterA, .scatterC, .scatterB] (by decide), effects_triple]
    simp only [effect_scatterA, effect_scatterB, effect_scatterC, fb_scatter, fc_scatter, rom_scatter]
    exact gather_scatter s.fb s.rom.permB _ h.permB_injective
  · rw [horder [.scatterA, .scatterB, .scatterC] (by decide), effects_triple]
    simp only [effect_scatterA, effect_scatterB, effect_scatterC, fb_scatter, fc_scatter, rom_scatter]
    exact gather_scatter s.fc s.rom.permC _ h.permC_injective

/-- A sequence that is not empty leaves its effects, completed. -/
theorem runCommands_of_ne_nil {l : List Instr} (hl : l ≠ []) (s : State) :
    runCommands l s = .next ((effects l s).setIll false) := by
  obtain ⟨i, l, rfl⟩ := List.exists_cons_of_ne_nil hl
  exact runCommands_eq_complete_effects i l s

/-- Settles O47: the fields gathered after the scatters are the registers in both runs, and they are all of WIRE. -/
theorem threeScattersDetermineWire : Obligations.ThreeScattersDetermineWire := by
  intro l l' s s' hl hl' h hrom hfa hfb hfc
  have hne : ∀ {m : List Instr}, m.Perm scatterCommands → m ≠ [] := by
    rintro _ hm rfl
    exact absurd hm.length_eq (by decide)
  obtain ⟨fieldA, fieldB, fieldC⟩ := gather_effects_of_scatters hl h
  obtain ⟨fieldA', fieldB', fieldC'⟩ := gather_effects_of_scatters hl' (s := s') (by rwa [hrom])
  rw [hrom] at fieldA' fieldB' fieldC'
  refine ⟨_, _, runCommands_of_ne_nil (hne hl) s, runCommands_of_ne_nil (hne hl') s', ?_⟩
  rw [State.setIll_wire, State.setIll_wire]
  exact wire_eq_of_gathers h (by rw [fieldA', fieldA, hfa]) (by rw [fieldB', fieldB, hfb])
    (by rw [fieldC', fieldC, hfc])

end Sys2Proof.Machine
end

section
/-! The block codes: a payload through its code and back, and one flipped bit (42_block_code.md R126, R127). -/

namespace Sys2Proof.Machine

/-- The payload of a GOLAY23 codeword (R126). -/
theorem extractLsb'_top23_romAt_systematic {t : RomTable} (h : RomTable.Systematic t) (v : Payload) :
    (top23 (romAt t v)).extractLsb' 11 12 = v := by
  rw [extractLsb'_top23, romAt_systematic h]

/-- Settles O48: both tables carry the payload where the extracts read it. -/
theorem codesGiveThePayloadBack : Obligations.CodesGiveThePayloadBack := by
  rintro s ⟨-, h24, h23⟩
  exact ⟨⟨_, runCommands_pair .golay24Enc .extractA s, romAt_systematic h24 s.pa⟩,
    ⟨_, runCommands_pair .golay23Enc .extractB s, extractLsb'_top23_romAt_systematic h23 s.pb⟩⟩

/-- Bit `j` with bit `k` flipped. -/
theorem getLsbD_xor_one_shiftLeft {w : Nat} (x : BitVec w) (j k : Nat) (hj : j < w) :
    (x ^^^ (1#w <<< k)).getLsbD j = (x.getLsbD j ^^ decide (j = k)) := by
  rw [BitVec.getLsbD_xor, ← BitVec.twoPow_eq, BitVec.getLsbD_twoPow, ← Bool.decide_and]
  exact congrArg (x.getLsbD j ^^ ·) (decide_eq_decide.mpr (by omega))

/-- A flipped bit below a run of bits is not in it (R127). -/
theorem extractLsb'_flip_below {w : Nat} (x : BitVec w) (p n k : Nat) (hk : k < p) (hw : p + n ≤ w) :
    (x ^^^ (1#w <<< k)).extractLsb' p n = x.extractLsb' p n :=
  extractLsb'_congr p n fun j hj => by
    rw [getLsbD_xor_one_shiftLeft x _ k (by omega), decide_eq_false (by omega), Bool.xor_false]

/-- A flipped bit of a run of bits is flipped in it (R127). -/
theorem extractLsb'_flip_within {w : Nat} (x : BitVec w) (p n k : Nat) (hw : p + n ≤ w) :
    (x ^^^ (1#w <<< (p + k))).extractLsb' p n = x.extractLsb' p n ^^^ (1#n <<< k) := by
  refine BitVec.eq_of_getLsbD_eq fun j hj => ?_
  rw [getLsbD_extractLsb'_of_lt _ p n j hj, getLsbD_xor_one_shiftLeft x _ _ (by omega),
    getLsbD_xor_one_shiftLeft _ _ _ hj, getLsbD_extractLsb'_of_lt x p n j hj]
  simp only [Nat.add_left_cancel_iff]

/-- Settles O49: the payload is a run of bits above the parity bits, and the extract clears ILL like any command. -/
theorem extractionNeverCorrects : Obligations.ExtractionNeverCorrects := fun s =>
  ⟨_, _, exec_extractA s, exec_extractB s,
    fun k hk => ⟨_, exec_extractA _, extractLsb'_flip_below s.fa 12 12 k hk (by decide), rfl⟩,
    fun k _ => ⟨_, exec_extractA _, extractLsb'_flip_within s.fa 12 12 k (by decide), rfl⟩,
    fun k hk => ⟨_, exec_extractB _, extractLsb'_flip_below s.fb 11 12 k hk (by decide), rfl⟩,
    fun k _ => ⟨_, exec_extractB _, extractLsb'_flip_within s.fb 11 12 k (by decide), rfl⟩⟩

end Sys2Proof.Machine
end

section
/-! The transforms after one another (44_frame_transform.md R177 to R179). -/

namespace Sys2Proof.Machine

/-- A gather is the field whose bits stand at its positions. -/
theorem gather_eq_of_readBit {n : Nat} {T : Vector WirePos n} {s : State} {v : BitVec n}
    (h : ∀ i : Fin n, readBit s.wire (T[i]).val = v.getMsbD i.val) : gather T s = v :=
  BitVec.eq_of_getMsbD_eq fun i hi => (getMsbD_gather T s ⟨i, hi⟩).trans (h ⟨i, hi⟩)

/-- The fields that ENCODE scatters are gathered again (R108, R176). -/
theorem gather_encodeFrame {s : State} (h : s.rom.WellFormed) :
    gather s.rom.permA (encodeFrame s) = (encodeFrame s).fa ∧ gather s.rom.permB (encodeFrame s) = (encodeFrame s).fb ∧
      gather s.rom.permC (encodeFrame s) = (encodeFrame s).fc := by
  obtain ⟨fieldA, fieldB, fieldC⟩ := readBit_encodeFrame_wire s h
  exact ⟨gather_eq_of_readBit fieldA, gather_eq_of_readBit fieldB, gather_eq_of_readBit fieldC⟩

/-- DECODE of a frame that ENCODE left finds the payloads, the mask and field C of the encode: codeword A gives payload
A, that gives the mask, and codeword B without the mask gives payload B (R177). -/
theorem decodeFrame_encodeFrame {s : State} (h : s.rom.WellFormed) :
    (decodeFrame (encodeFrame s)).pa = (encodeFrame s).pa ∧ (decodeFrame (encodeFrame s)).mask = (encodeFrame s).mask ∧
      (decodeFrame (encodeFrame s)).pb = (encodeFrame s).pb ∧ (decodeFrame (encodeFrame s)).fc = (encodeFrame s).fc := by
  obtain ⟨fieldA, fieldB, fieldC⟩ := gather_encodeFrame h
  obtain ⟨-, h24, h23⟩ := h
  have hpa : (decodeFrame (encodeFrame s)).pa = (encodeFrame s).pa := by
    rw [decodeFrame_pa, decodeFrame_fa, encodeFrame_rom, fieldA, encodeFrame_fa, romAt_systematic h24]
  have hmask : (decodeFrame (encodeFrame s)).mask = (encodeFrame s).mask := by
    rw [decodeFrame_mask, hpa, encodeFrame_rom, encodeFrame_mask s]
  have hfb : (decodeFrame (encodeFrame s)).fb = top23 (romAt s.rom.golay23 (encodeFrame s).pb) := by
    rw [decodeFrame_fb, hmask, encodeFrame_rom, fieldB, encodeFrame_fb, BitVec.xor_assoc, BitVec.xor_self,
      BitVec.xor_zero]
  refine ⟨hpa, hmask, ?_, ?_⟩
  · rw [decodeFrame_pb, hfb, extractLsb'_top23_romAt_systematic h23]
  · rw [decodeFrame_fc, encodeFrame_rom, fieldC]

/-- A field of PARAM written back where it was read leaves PARAM (R170). -/
theorem putParamField_paramField (start n : Nat) (buf : ParamFrame) (h : start + n ≤ 56) :
    putParamField start (paramField start n buf) buf = buf :=
  scatterBits_gatherBits _ buf (fun i => by omega) fun i j e => Fin.ext (Nat.add_left_cancel e)

/-- ENCODE then DECODE packs the fields that were unpacked, so PARAM is as it was (R177). -/
theorem decodeFrame_encodeFrame_param {s : State} (h : s.rom.WellFormed) :
    (decodeFrame (encodeFrame s)).param = s.param := by
  obtain ⟨hpa, -, hpb, hfc⟩ := decodeFrame_encodeFrame h
  rw [decodeFrame_param, hpa, hpb, hfc, encodeFrame_param, encodeFrame_pa, encodeFrame_pb, encodeFrame_fc,
    putParamField_paramField 0 12 _ (by decide), putParamField_paramField 12 12 _ (by decide),
    putParamField_paramField 24 25 _ (by decide)]

/-- Settles O52: the registers by `decodeFrame_encodeFrame`; that ENCODE clears ILL first makes no difference. -/
theorem encodeThenDecodeGivesParamBack : Obligations.EncodeThenDecodeGivesParamBack := by
  intro s h
  obtain ⟨hpa, hmask, hpb, hfc⟩ := decodeFrame_encodeFrame h
  have hdecode : exec .decode ((encodeFrame s).setIll false) = .next ((decodeFrame (encodeFrame s)).setIll false) :=
    (exec_setIll .decode (encodeFrame s) false).trans (exec_decode (encodeFrame s))
  refine ⟨_, _, exec_encode s, ?encoded, hdecode, ?decoded, ?wire, ?pa, ?pb, ?fc, ?mask⟩
  case encoded => rw [State.setIll_param, encodeFrame_param]
  case decoded => rw [State.setIll_param, decodeFrame_encodeFrame_param h]
  case wire => rw [State.setIll_wire, State.setIll_wire, decodeFrame_wire]
  case pa => rw [State.setIll_pa, State.setIll_pa, hpa]
  case pb => rw [State.setIll_pb, State.setIll_pb, hpb]
  case fc => rw [State.setIll_fc, State.setIll_fc, hfc]
  case mask => rw [State.setIll_mask, State.setIll_mask, hmask]

/-- Settles O53: DECODE copies the bits of field C, and ENCODE puts PARAM's there. -/
theorem fieldCPassesThrough : Obligations.FieldCPassesThrough := by
  refine ⟨fun s => ⟨_, exec_decode s, readBit_decodeFrame_param_C s⟩,
    fun s h => ⟨_, runCommands_pair .encode .decode s, fun i => ⟨?onWire, ?inParam⟩⟩⟩
  case onWire =>
    obtain ⟨-, -, fieldC⟩ := readBit_encodeFrame_wire_words s h
    rw [State.setIll_wire, effect, effect, decodeFrame_wire, fieldC]
  case inParam => rw [State.setIll_param, effect, effect, decodeFrame_encodeFrame_param h]

/-- DECODE of a frame that ENCODE left from `f` gives `f` back, padding apart, and encoding that leaves the frame; and a
frame that is restored was encoded from what DECODE left in PARAM (R179). -/
theorem encodeFrame_decodeFrame_wire_iff {s : State} (h : s.rom.WellFormed) :
    (encodeFrame (decodeFrame s)).wire = s.wire ↔ ∃ f, (encodeFrame (s.setParam f)).wire = s.wire := by
  have hencode : ∀ f, (∀ q < 49, readBit (decodeFrame s).param q = readBit f q) →
      (encodeFrame (decodeFrame s)).wire = (encodeFrame (s.setParam f)).wire := fun f hf =>
    encodeFrame_wire_congr (s := s.setParam f) h (decodeFrame_rom s) (by rwa [State.setParam_param])
  constructor
  · intro hback
    exact ⟨(decodeFrame s).param, (hencode _ fun _ _ => rfl).symm.trans hback⟩
  · rintro ⟨f, hwire⟩
    obtain ⟨-, hpa, -, -, hpb, hfc⟩ := decodeFrame_congr (s := s) (encodeFrame_rom (s.setParam f)) hwire
    have hparam : (decodeFrame (encodeFrame (s.setParam f))).param = f :=
      decodeFrame_encodeFrame_param (s := s.setParam f) h
    rw [hencode f fun q hq => by rw [← readBit_decodeFrame_param_congr hpa hpb hfc q hq, hparam], hwire]

/-- Settles O54: each command is its effect, and the clear of ILL is not seen in WIRE. -/
theorem decodeThenEncodeRestoresValidFramesOnly : Obligations.DecodeThenEncodeRestoresValidFramesOnly := by
  intro s h
  refine ⟨_, runCommands_pair .decode .encode s, ?_⟩
  rw [State.setIll_wire, effect, effect, encodeFrame_decodeFrame_wire_iff h]
  refine exists_congr fun f => ⟨fun hwire => ⟨_, exec_encode (s.setParam f), ?_⟩, fun ⟨u, hu, hwire⟩ => ?_⟩
  · rw [State.setIll_wire, hwire]
  · have hencode := (exec_encode (s.setParam f)).symm.trans hu
    rw [Host.Outcome.next.injEq] at hencode
    rw [← hwire, ← hencode, State.setIll_wire]

end Sys2Proof.Machine
end

section
/-! One channel error before a DECODE (42_block_code.md R127, 43_scrambler.md R154, 60_exceptions.md R213). -/

namespace Sys2Proof.Machine

/-- A flipped position that a table does not name is not gathered through it. -/
theorem gather_flipWire_of_forall_ne {n : Nat} (T : Vector WirePos n) (s : State) {p : Nat}
    (h : ∀ i : Fin n, (T[i]).val ≠ p) : gather T (flipWire p s) = gather T s :=
  gatherBits_congr _ fun i => readBit_writeBit_ne s.wire _ (h i)

/-- A flipped position of a table flips the one bit that is gathered from it. -/
theorem gather_flipWire {n : Nat} (T : Vector WirePos n) (s : State) (i : Fin n)
    (hT : Function.Injective fun i : Fin n => (T[i]).val) :
    gather T (flipWire (T[i]).val s) = gather T s ^^^ (1#n <<< (n - 1 - i.val)) := by
  refine BitVec.eq_of_getLsbD_eq fun j hj => ?_
  obtain ⟨k, rfl⟩ : ∃ k : Fin n, j = n - 1 - k.val := ⟨⟨n - 1 - j, by omega⟩, by dsimp only; omega⟩
  rw [getLsbD_xor_one_shiftLeft _ _ _ hj, getLsbD_gather T (flipWire (T[i]).val s) k, getLsbD_gather T s k, flipWire,
    State.setWire_wire, readBit_writeBit]
  by_cases hk : k = i
  · subst hk
    rw [if_pos ⟨rfl, (T[k]).isLt⟩, decide_eq_true rfl, Bool.xor_true]
  · rw [if_neg fun ⟨e, _⟩ => hk (hT e), decide_eq_false (by omega), Bool.xor_false]

theorem rom_flipWire (p : Nat) (s : State) : (flipWire p s).rom = s.rom := rfl
theorem param_flipWire (p : Nat) (s : State) : (flipWire p s).param = s.param := rfl

/-- The registers that DECODE leaves. -/
theorem exec_decode_registers (s : State) :
    ∃ t, exec .decode s = .next t ∧ t.param = (decodeFrame s).param ∧ t.pa = (decodeFrame s).pa ∧
      t.pb = (decodeFrame s).pb ∧ t.fc = (decodeFrame s).fc ∧ t.mask = (decodeFrame s).mask ∧ t.ill = false :=
  ⟨_, exec_decode s, State.setIll_param _ _, State.setIll_pa _ _, State.setIll_pb _ _, State.setIll_fc _ _,
    State.setIll_mask _ _, State.setIll_ill _ _⟩

/-- The mask is that of payload A (R150). -/
theorem decodeFrame_mask_congr {s u : State} (hrom : u.rom = s.rom) (hpa : (decodeFrame u).pa = (decodeFrame s).pa) :
    (decodeFrame u).mask = (decodeFrame s).mask := by
  rw [decodeFrame_mask, decodeFrame_mask, hpa, hrom]

/-- Payload B comes from field B's positions under that mask (R174). -/
theorem decodeFrame_pb_congr {s u : State} (hrom : u.rom = s.rom) (hpa : (decodeFrame u).pa = (decodeFrame s).pa)
    (hB : gather s.rom.permB u = gather s.rom.permB s) : (decodeFrame u).pb = (decodeFrame s).pb := by
  rw [decodeFrame_pb, decodeFrame_pb, decodeFrame_fb, decodeFrame_fb, decodeFrame_mask_congr hrom hpa, hrom, hB]

/-- PARAM after DECODE is the payloads and field C over the padding. -/
theorem decodeFrame_param_congr {s u : State} (hparam : u.param = s.param)
    (hpa : (decodeFrame u).pa = (decodeFrame s).pa) (hpb : (decodeFrame u).pb = (decodeFrame s).pb)
    (hfc : (decodeFrame u).fc = (decodeFrame s).fc) : (decodeFrame u).param = (decodeFrame s).param := by
  rw [decodeFrame_param, decodeFrame_param, hparam, hpa, hpb, hfc]

section
variable {s : State} (h : s.rom.WellFormed)
include h

/-- An error in field A reaches FA, and neither field B's positions nor FC. -/
theorem decodeFrame_flipWire_A (i : Fin 24) :
    (decodeFrame (flipWire (s.rom.permA[i]).val s)).fa = (decodeFrame s).fa ^^^ (1#24 <<< (23 - i.val)) ∧
      gather s.rom.permB (flipWire (s.rom.permA[i]).val s) = gather s.rom.permB s ∧
      (decodeFrame (flipWire (s.rom.permA[i]).val s)).fc = (decodeFrame s).fc := by
  refine ⟨?_, gather_flipWire_of_forall_ne _ s fun j => (h.permA_ne_permB i j).symm, ?_⟩
  · rw [decodeFrame_fa, decodeFrame_fa, rom_flipWire, gather_flipWire s.rom.permA s i h.permA_injective]
  · rw [decodeFrame_fc, decodeFrame_fc, rom_flipWire,
      gather_flipWire_of_forall_ne s.rom.permC s fun j => (h.permA_ne_permC i j).symm]

/-- An error in field B reaches FB alone of the fields, and leaves payload A. -/
theorem decodeFrame_flipWire_B (i : Fin 23) :
    (decodeFrame (flipWire (s.rom.permB[i]).val s)).pa = (decodeFrame s).pa ∧
      (decodeFrame (flipWire (s.rom.permB[i]).val s)).fb = (decodeFrame s).fb ^^^ (1#23 <<< (22 - i.val)) ∧
      (decodeFrame (flipWire (s.rom.permB[i]).val s)).fc = (decodeFrame s).fc := by
  have hpa : (decodeFrame (flipWire (s.rom.permB[i]).val s)).pa = (decodeFrame s).pa := by
    rw [decodeFrame_pa, decodeFrame_pa, decodeFrame_fa, decodeFrame_fa, rom_flipWire,
      gather_flipWire_of_forall_ne s.rom.permA s fun j => h.permA_ne_permB j i]
  refine ⟨hpa, ?_, ?_⟩
  · rw [decodeFrame_fb, decodeFrame_fb, decodeFrame_mask_congr (rom_flipWire _ s) hpa, rom_flipWire,
      gather_flipWire s.rom.permB s i h.permB_injective, BitVec.xor_assoc, BitVec.xor_assoc,
      BitVec.xor_comm (decodeFrame s).mask]
  · rw [decodeFrame_fc, decodeFrame_fc, rom_flipWire,
      gather_flipWire_of_forall_ne s.rom.permC s fun j => (h.permB_ne_permC i j).symm]

/-- An error in field C reaches FC alone of the fields, and leaves both payloads. -/
theorem decodeFrame_flipWire_C (i : Fin 25) :
    (decodeFrame (flipWire (s.rom.permC[i]).val s)).pa = (decodeFrame s).pa ∧
      (decodeFrame (flipWire (s.rom.permC[i]).val s)).pb = (decodeFrame s).pb ∧
      (decodeFrame (flipWire (s.rom.permC[i]).val s)).fc = (decodeFrame s).fc ^^^ (1#25 <<< (24 - i.val)) := by
  have hpa : (decodeFrame (flipWire (s.rom.permC[i]).val s)).pa = (decodeFrame s).pa := by
    rw [decodeFrame_pa, decodeFrame_pa, decodeFrame_fa, decodeFrame_fa, rom_flipWire,
      gather_flipWire_of_forall_ne s.rom.permA s fun j => h.permA_ne_permC j i]
  refine ⟨hpa, decodeFrame_pb_congr (rom_flipWire _ s) hpa ?_, ?_⟩
  · exact gather_flipWire_of_forall_ne _ s fun j => h.permB_ne_permC j i
  · rw [decodeFrame_fc, decodeFrame_fc, rom_flipWire, gather_flipWire s.rom.permC s i h.permC_injective]

/-- A flipped parity bit of field A is dropped with the other parity bits. -/
theorem decodeFrame_flipWire_parityA {i : Fin 24} (hi : 12 ≤ i.val) :
    (decodeFrame (flipWire (s.rom.permA[i]).val s)).pa = (decodeFrame s).pa := by
  obtain ⟨hfa, -, -⟩ := decodeFrame_flipWire_A h i
  rw [decodeFrame_pa, decodeFrame_pa, hfa, extractLsb'_flip_below _ 12 12 _ (by omega) (by decide)]

theorem decodeFrame_flipWire_payloadA {i : Fin 24} (hi : i.val < 12) :
    (decodeFrame (flipWire (s.rom.permA[i]).val s)).pa = (decodeFrame s).pa ^^^ (1#12 <<< (11 - i.val)) := by
  obtain ⟨hfa, -, -⟩ := decodeFrame_flipWire_A h i
  rw [decodeFrame_pa, decodeFrame_pa, hfa, show 23 - i.val = 12 + (11 - i.val) by omega,
    extractLsb'_flip_within _ 12 12 _ (by decide)]

/-- The same of field B, whose payload is taken after the mask. -/
theorem decodeFrame_flipWire_parityB {i : Fin 23} (hi : 12 ≤ i.val) :
    (decodeFrame (flipWire (s.rom.permB[i]).val s)).pb = (decodeFrame s).pb := by
  obtain ⟨-, hfb, -⟩ := decodeFrame_flipWire_B h i
  rw [decodeFrame_pb, decodeFrame_pb, hfb, extractLsb'_flip_below _ 11 12 _ (by omega) (by decide)]

theorem decodeFrame_flipWire_payloadB {i : Fin 23} (hi : i.val < 12) :
    (decodeFrame (flipWire (s.rom.permB[i]).val s)).pb = (decodeFrame s).pb ^^^ (1#12 <<< (11 - i.val)) := by
  obtain ⟨-, hfb, -⟩ := decodeFrame_flipWire_B h i
  rw [decodeFrame_pb, decodeFrame_pb, hfb, show 22 - i.val = 11 + (11 - i.val) by omega,
    extractLsb'_flip_within _ 11 12 _ (by decide)]

end

/-- Settles O55, one kind of position at a time: what reaches a payload or field C, and that the rest is kept. -/
theorem singleChannelErrors : Obligations.SingleChannelErrors := by
  intro s h
  obtain ⟨t, ht, tparam, tpa, tpb, tfc, tmask, -⟩ := exec_decode_registers s
  refine ⟨t, ht, fun i hi => ?parityA, fun i hi => ?payloadA, fun i hi => ?parityB, fun i hi => ?payloadB,
    fun i => ?fieldC⟩
  case parityA =>
    obtain ⟨u, hu, uparam, -, -, -, umask, uill⟩ := exec_decode_registers (flipWire (s.rom.permA[i]).val s)
    obtain ⟨-, hB, hfc⟩ := decodeFrame_flipWire_A h i
    have hpa := decodeFrame_flipWire_parityA h hi
    have hpb := decodeFrame_pb_congr (rom_flipWire _ s) hpa hB
    refine ⟨u, hu, ?_, ?_, uill⟩
    · rw [uparam, tparam, decodeFrame_param_congr (param_flipWire _ s) hpa hpb hfc]
    · rw [umask, tmask, decodeFrame_mask_congr (rom_flipWire _ s) hpa]
  case payloadA =>
    obtain ⟨u, hu, -, upa, -, ufc, -, uill⟩ := exec_decode_registers (flipWire (s.rom.permA[i]).val s)
    obtain ⟨-, -, hfc⟩ := decodeFrame_flipWire_A h i
    exact ⟨u, hu, by rw [upa, tpa, decodeFrame_flipWire_payloadA h hi], by rw [ufc, tfc, hfc], uill⟩
  case parityB =>
    obtain ⟨u, hu, uparam, -, -, -, -, uill⟩ := exec_decode_registers (flipWire (s.rom.permB[i]).val s)
    obtain ⟨hpa, -, hfc⟩ := decodeFrame_flipWire_B h i
    have hpb := decodeFrame_flipWire_parityB h hi
    exact ⟨u, hu, by rw [uparam, tparam, decodeFrame_param_congr (param_flipWire _ s) hpa hpb hfc], uill⟩
  case payloadB =>
    obtain ⟨u, hu, -, upa, upb, ufc, umask, uill⟩ := exec_decode_registers (flipWire (s.rom.permB[i]).val s)
    obtain ⟨hpa, -, hfc⟩ := decodeFrame_flipWire_B h i
    refine ⟨u, hu, ?_, by rw [upa, tpa, hpa], ?_, by rw [ufc, tfc, hfc], uill⟩
    · rw [upb, tpb, decodeFrame_flipWire_payloadB h hi]
    · rw [umask, tmask, decodeFrame_mask_congr (rom_flipWire _ s) hpa]
  case fieldC =>
    obtain ⟨u, hu, -, upa, upb, ufc, umask, uill⟩ := exec_decode_registers (flipWire (s.rom.permC[i]).val s)
    obtain ⟨hpa, hpb, hfc⟩ := decodeFrame_flipWire_C h i
    refine ⟨u, hu, by rw [ufc, tfc, hfc], by rw [upa, tpa, hpa], by rw [upb, tpb, hpb], ?_, uill⟩
    rw [umask, tmask, decodeFrame_mask_congr (rom_flipWire _ s) hpa]

end Sys2Proof.Machine
end

section
/-! The orders of the decode commands (70_reset_and_hazards.md R250). -/

namespace Sys2Proof.Machine

/-- A command that changes places with the first `n` of a list may stand before them or after them. -/
theorem effects_insertIdx {i : Instr} {l : List Instr} {n : Nat} (hn : n ≤ l.length)
    (h : ∀ j ∈ l.take n, ∀ s, effect i (effect j s) = effect j (effect i s)) (s : State) :
    effects (l.insertIdx n i) s = effects (i :: l) s := by
  induction n generalizing l s with
  | zero => rfl
  | succ n ih =>
    cases l with
    | nil => exact absurd hn (Nat.not_succ_le_zero n)
    | cons j l =>
      obtain ⟨hj, h⟩ := List.forall_mem_cons.mp h
      rw [List.insertIdx_succ_cons, effects_cons, ih (Nat.le_of_succ_le_succ hn) h, effects_cons, hj, effects_cons,
        effects_cons]

/-- GATHER_B changes places with the commands before SCRAMBLE_B: none of them uses FB, and it uses nothing of theirs. -/
theorem effect_gatherB_comm {j : Instr} (hj : j ∈ [Instr.gatherA, .extractA, .prngMask]) (s : State) :
    effect .gatherB (effect j s) = effect j (effect .gatherB s) := by
  simp only [List.mem_cons, List.not_mem_nil, or_false] at hj
  obtain rfl | rfl | rfl := hj
  all_goals rfl

/-- GATHER_C changes places with all the commands before PACK_PARAM: none of them uses FC. -/
theorem effect_gatherC_comm {j : Instr}
    (hj : j ∈ [Instr.gatherA, .extractA, .gatherB, .prngMask, .scrambleB, .extractB]) (s : State) :
    effect .gatherC (effect j s) = effect j (effect .gatherC s) := by
  simp only [List.mem_cons, List.not_mem_nil, or_false] at hj
  obtain rfl | rfl | rfl | rfl | rfl | rfl := hj
  all_goals rfl

/-- The decode commands without the two gathers that may stand in several places. -/
def decodeChain : List Instr := [.gatherA, .extractA, .prngMask, .scrambleB, .extractB, .packParam]

/-- Both gathers may as well come first. -/
theorem effects_decodeChain_insertIdx {b c : Nat} (hb : b ≤ 3) (hc : c ≤ 6) (s : State) :
    effects ((decodeChain.insertIdx b .gatherB).insertIdx c .gatherC) s =
      effects (.gatherC :: .gatherB :: decodeChain) s := by
  have hbefore : ∀ b ≤ 3, ∀ c ≤ 6, c ≤ (decodeChain.insertIdx b .gatherB).length ∧
      ∀ j ∈ (decodeChain.insertIdx b .gatherB).take c,
        j ∈ [Instr.gatherA, .extractA, .gatherB, .prngMask, .scrambleB, .extractB] := by decide
  have hbefore' : ∀ b ≤ 3, b ≤ decodeChain.length ∧
      ∀ j ∈ decodeChain.take b, j ∈ [Instr.gatherA, .extractA, .prngMask] := by decide
  obtain ⟨hlen, hC⟩ := hbefore b hb c hc
  obtain ⟨hlen', hB⟩ := hbefore' b hb
  rw [effects_insertIdx hlen (fun j hj => effect_gatherC_comm (hC j hj)), effects_cons,
    effects_insertIdx hlen' (fun j hj => effect_gatherB_comm (hB j hj)), ← effects_cons]

/-- A list of commands completes, whatever their order (R212). -/
theorem runCommands_completes (l : List Instr) (s : State) : ∃ t, runCommands l s = .next t := by
  cases l with
  | nil => exact ⟨s, rfl⟩
  | cons i l => exact ⟨_, runCommands_eq_complete_effects i l s⟩

/-- Settles O58: DECODE's own order is the one with GATHER_B at 2 and GATHER_C at 6, and all the orders agree with the
one that has both gathers first. -/
theorem decodeOrdersAgree : Obligations.DecodeOrdersAgree := by
  refine ⟨fun s b c hb hc => ?_, runCommands_completes⟩
  have hne : ∀ b ≤ 3, ∀ c ≤ 6, (decodeChain.insertIdx b .gatherB).insertIdx c .gatherC ≠ [] := by decide
  have hdecode : decodeFrame = effects ((decodeChain.insertIdx 2 .gatherB).insertIdx 6 .gatherC) :=
    decodeFrame_eq_effects
  calc runCommands ((decodeChain.insertIdx b .gatherB).insertIdx c .gatherC) s
    _ = .next ((effects ((decodeChain.insertIdx b .gatherB).insertIdx c .gatherC) s).setIll false) :=
      runCommands_of_ne_nil (hne b hb c hc) s
    _ = exec .decode s := by
      rw [exec_decode, hdecode, effects_decodeChain_insertIdx hb hc,
        effects_decodeChain_insertIdx (by decide) (by decide)]

end Sys2Proof.Machine
end
